-- ==== Sys2Proof/Config.lean ====
section
/-! DEFINITION. The parameters of the block: the fixed ones (R5) as constants under their own names, which every type,
field and bound of the model is written with (log entry 18; in a type, `delta%` puts the constant's value for its
name, so that a proof meets a numeral); the open ones (R6) as a record of plain data that every
state carries and no step changes (R12; log entry 4); and the uninterpreted file tag MAGIC (log entry 5). -/

namespace Sys2Proof

/-- `TOGGLE_THRESHOLD`, the encoder's switching length: 1 or 2 (R6, D7). -/
inductive Threshold where
  | one
  | two
deriving DecidableEq, Repr

/-- The parameters the source leaves open (R6). Log entry 4. -/
structure Config where
  /-- `TOGGLE_THRESHOLD` (R84, D7). -/
  threshold : Threshold
  /-- `NUM_MODES`, the number of recognised modes and the length of MOFF (R35, D23). -/
  numModes : Nat
  /-- `IMEM_SIZE`, the length of the input buffer (R36, D10). -/
  imemSize : Nat
deriving DecidableEq, Repr

namespace Config

/-- `BYTE_W`, the width of every stream element, count and LUT entry (R5). -/
def byteWidth : Nat := 8

/-- `PHASE_W`, the width of a phase code (R5). -/
def phaseWidth : Nat := 2

/-- `RUN_W`, the width of the run-length field of a LUT entry (R5). -/
def runWidth : Nat := 5

/-- `EOS_BIT`, the bit of a LUT entry that marks the last pair of a sequence (R5). -/
def eosBit : Nat := 5

/-- `REM_W`, the width of the run remainder unit P counts down (R5). PHASE stands above it (R19). -/
def remWidth : Nat := 6

/-- `IDX_W`, the width of the sequence index in OUTER (R5). DB stands above it (R18). -/
def idxWidth : Nat := 7

/-- The width of a gray level as an operand (R62, R63). -/
def levelWidth : Nat := 5

/-- The width of a row number, ROW.S and ROW.D: a gray level without its bit 0 (R21, R38). -/
def rowWidth : Nat := 4

/-- The width of OUTER: `IDX_W` and the bit of DB (R18). -/
def outerWidth : Nat := 8

/-- The width of ROW: two row numbers (R21). -/
def rowPairWidth : Nat := 8

/-- `AW`, the width of an IMEM address (R6, D10). -/
def addrWidth : Nat := 24

/-- `AW + 1`, the width of a bound or a length (R62). -/
def extentWidth : Nat := 25

/-- `END_TOKEN` (R5, D1). -/
def endToken : BitVec (delta% byteWidth) := 0xFF

/-- `TOGGLE_TOKEN` (R5, D1). -/
def toggleToken : BitVec (delta% byteWidth) := 0xFC

/-- `COUNT_MAX`, the largest repeat-count byte (R5). -/
def countMax : Nat := 255

/-- The copies one REP token can emit at most: `COUNT_MAX + 1` (R5). -/
def maxCopies : Nat := (delta% countMax) + 1

/-- `RUN_CAP`, the longest run of one Summary pair (R5, R58). -/
def runCap : Nat := 31

/-- `SEQ_SHIFT`: a row of the table has `2^SEQ_SHIFT` slots (R5). -/
def seqShift : Nat := 6

/-- Slots of one row of the table, `2^SEQ_SHIFT` (R5, R38). -/
def slots : Nat := 2 ^ (delta% seqShift)

/-- `LEVELS`, the gray levels of a transition (R5). -/
def levels : Nat := 32

/-- `ROWS`, the table's axis length for source and for destination (R5, R38). -/
def rows : Nat := 16

/-- `LUT_BYTES` (R5, R35). -/
def lutBytes : Nat := rows * rows * slots

/-- The number of addresses, `2^AW`: the largest IMEM_SIZE and the largest value of CUR (R17, R35). -/
def addrSpace : Nat := 2 ^ (delta% addrWidth)

/-- `MAGIC`, the 8-byte tag of the output file: an uninterpreted parameter (R6, R42, D23). Log entry 5. -/
opaque magic : Vector (BitVec (delta% byteWidth)) 8

/-- The ranges R6 and D23 give the open parameters: a mode number is one byte, so there are at most `2^BYTE_W`. -/
abbrev wf (c : Config) : Prop :=
  1 ≤ c.numModes ∧ c.numModes ≤ 2 ^ (delta% byteWidth) ∧ c.imemSize ≤ addrSpace

/-- The parameters of the machine `State.reset` starts with: the default threshold of R6; every mode number
recognised and the whole address space filled with IMEM, which are DESIGN CHOICES (log entry 4). -/
def atReset : Config := { threshold := .two, numModes := 2 ^ (delta% byteWidth), imemSize := addrSpace }

end Config

namespace Threshold

/-- The threshold as the length it stands for (R84). -/
def toNat : Threshold → Nat
  | .one => 1
  | .two => 2

end Threshold

end Sys2Proof
end

