-- ==== Sys2Proof/Word.lean ====
section
/-! DEFINITION. The word types of the block, each of the width its parameter in Config gives (R5, R6, R62; log entry
18): a byte, a phase code, a run length, a gray level, the words of OUTER and ROW, an IMEM address, a bound. -/

namespace Sys2Proof

/-- One byte, `BYTE_W` bits: every element of IMEM, LUT, MOFF and OUT (R5, R35). -/
abbrev Byte := BitVec (delta% Config.byteWidth)

/-- A phase code, `PHASE_W` bits: every element of HIST and of the two phase slots (R5, R20, R35, R57). -/
abbrev Phase := BitVec (delta% Config.phaseWidth)

/-- The run-length field of an entry, `RUN_W` bits (R5, R57). -/
abbrev RunLength := BitVec (delta% Config.runWidth)

/-- A gray level, 0 to `LEVELS - 1` (R5, R62). -/
abbrev Level := BitVec (delta% Config.levelWidth)

/-- A run remainder, `REM_W` bits (R5, R19). -/
abbrev Remainder := BitVec (delta% Config.remWidth)

/-- A sequence index, `IDX_W` bits (R5, R18). -/
abbrev SeqIndex := BitVec (delta% Config.idxWidth)

/-- A row number, ROW.S or ROW.D (R21). -/
abbrev RowNumber := BitVec (delta% Config.rowWidth)

/-- The word OUTER holds, `{DB, IDX}` (R5, R18). -/
abbrev OuterWord := BitVec (delta% Config.outerWidth)

/-- A latched row, `{S, D}` (R21). -/
abbrev RowPair := BitVec (delta% Config.rowPairWidth)

/-- An IMEM address, `AW` bits: `off` of DEC, `src` of ENC (R62). -/
abbrev Addr := BitVec (delta% Config.addrWidth)

/-- A bound or a length in IMEM, `AW + 1` bits: `bound` of DEC, `length` of ENC (R62). -/
abbrev Extent := BitVec (delta% Config.extentWidth)

end Sys2Proof
end

