-- ==== Sys2Proof/Syntax.lean ====
section
/-! DEFINITION. The fourteen rows of spec/opcode_table.json as one inductive, the mode a token is read under, the
port on which the host presents an operation, and the three encoding spaces (R3, R50 to R64). -/

namespace Sys2Proof

/-- The mode flag's two values (R13): REPEAT, in which a value is followed by a count byte, and LITERAL, in which
it stands alone. -/
inductive Mode where
  | repeatMode
  | literalMode
deriving DecidableEq, Repr

/-- One constructor per row of the opcode table. The names in comments are the rows' mnemonics. -/
inductive Instr where
  /-- END: the byte END_TOKEN at a token position (R51). -/
  | endTok
  /-- TOG: the byte TOGGLE_TOKEN at a token position and what it hands over to (R52): a value `v` alone when the
  new mode is LITERAL, a value `v` and a count byte when it is REPEAT. -/
  | tog (v : Byte) (count : Option Byte)
  /-- REP v,c (R53). -/
  | rep (v c : Byte)
  /-- LIT v (R54). -/
  | lit (v : Byte)
  /-- NIL: the empty slot (R59). -/
  | nil
  /-- P<p>x<r>: a pair that is not the last of its Summary (R57). -/
  | pair (p : Phase) (r : RunLength)
  /-- P<p>x<r>!: the last pair of a Summary (R57). -/
  | pairLast (p : Phase) (r : RunLength)
  /-- reserved-entry: an entry byte with RUN = 0 that is not NIL (R60); `eos` is bit 5. -/
  | reservedEntry (p : Phase) (eos : Bool)
  /-- DEC off, bound (R62, R65). -/
  | dec (off : Addr) (bound : Extent)
  /-- ENC src, length (R62, R81). -/
  | enc (src : Addr) (length : Extent)
  /-- SCHEDULE source, destination, mode (R62, R92). -/
  | schedule (source destination : Level) (mode : Byte)
  /-- EVOLVE (R62, R93). -/
  | evolve
  /-- FRAME (R62, R99). -/
  | frame
  /-- reserved-op: an operation code with no operation (R62). -/
  | reservedOp (code : BitVec 3)
deriving DecidableEq, Repr

/-- What the host presents to start an operation: the 3-bit code OP and the operand values (R62). An operation
reads the operands R62 lists for it and no others (log entry 11). -/
structure OpPort where
  /-- OP (R62). -/
  op : BitVec 3
  /-- `off` of DEC, `src` of ENC: AW bits. -/
  addr : Addr
  /-- `bound` of DEC, `length` of ENC: AW + 1 bits. -/
  extent : Extent
  /-- `source` of SCHEDULE. -/
  source : Level
  /-- `destination` of SCHEDULE. -/
  destination : Level
  /-- `mode` of SCHEDULE. -/
  mode : Byte
deriving DecidableEq, Repr

/-- The three encoding spaces of R3. They overlap as numbers; where an instruction is read decides which applies. -/
inductive Code where
  /-- Bytes of the token stream, in address order (R50). -/
  | stream (bytes : List Byte)
  /-- One byte of the table (R57). -/
  | entry (b : Byte)
  /-- An operation presented by the host (R62). -/
  | operation (p : OpPort)
deriving DecidableEq, Repr

namespace Instr

/-- The mode under which a token is read (R50): a REP and a TOG into LITERAL in REPEAT, a LIT and a TOG into
REPEAT in LITERAL, END in either. Entries and operations are read under no mode. -/
def readUnder : Instr → Mode → Bool
  | .rep _ _, m => m = .repeatMode
  | .tog _ none, m => m = .repeatMode
  | .lit _, m => m = .literalMode
  | .tog _ (some _), m => m = .literalMode
  | .endTok, _ => true
  | .nil, _ => true
  | .pair _ _, _ => true
  | .pairLast _ _, _ => true
  | .reservedEntry _ _, _ => true
  | .dec _ _, _ => true
  | .enc _ _, _ => true
  | .schedule _ _ _, _ => true
  | .evolve, _ => true
  | .frame, _ => true
  | .reservedOp _, _ => true

end Instr

end Sys2Proof
end

