-- ==== Sys2Proof/WellFormed.lean ====
section
/-! DEFINITION. Which terms of `Instr` are instructions of the block: the side conditions of the opcode table's rows
(a value at a token position is no token, R50 and R55; a pair's run is not 0, R57 and R60; a reserved entry is not
NIL, R60; a reserved code is none of the five operations', R62). -/

namespace Sys2Proof.Instr

/-- A value that can stand at a token position: neither END_TOKEN nor TOGGLE_TOKEN (R50, R55). -/
def plainValue (v : Byte) : Bool :=
  v ≠ Config.endToken && v ≠ Config.toggleToken

/-- The table's conditions, row by row. -/
def wellFormed : Instr → Bool
  | .endTok => true
  | .tog _ _ => true
  | .rep v _ => plainValue v
  | .lit v => plainValue v
  | .nil => true
  | .pair _ r => r ≠ 0
  | .pairLast _ r => r ≠ 0
  | .reservedEntry p eos => p ≠ 0 || eos
  | .dec _ _ => true
  | .enc _ _ => true
  | .schedule _ _ _ => true
  | .evolve => true
  | .frame => true
  | .reservedOp code => code = 2 || code = 3 || code = 7

end Sys2Proof.Instr
end

