-- ==== Sys2Proof/Decode.lean ====
section
/-! DEFINITION. The decoder of the three encoding spaces, total on any bytes and refusing by name, then the encoder,
then the one numbering of the opcode table's words (R50 to R63). -/

namespace Sys2Proof

/-- Why bytes are no instruction. -/
inductive DecodeError where
  /-- A token needs its byte number `k` (0 is the byte at the token position) and the bytes end before it. -/
  | needByte (k : Nat)
deriving DecidableEq, Repr

/-! ## The token stream -/

/-- After a TOGGLE_TOKEN: the next byte is the value token, not tested again (R52, R55, D2), read under the flipped
mode: alone when that is LITERAL, with a count byte when it is REPEAT. -/
def decodeToggled : Mode → List Byte → Except DecodeError (Instr × List Byte)
  | _, [] => .error (.needByte 1)
  | .repeatMode, v :: rest => .ok (.tog v none, rest)
  | .literalMode, [_] => .error (.needByte 2)
  | .literalMode, v :: c :: rest => .ok (.tog v (some c), rest)

/-- A value byte at a token position, read under the mode (R50, R53, R54). -/
def decodeValue : Mode → Byte → List Byte → Except DecodeError (Instr × List Byte)
  | .literalMode, v, rest => .ok (.lit v, rest)
  | .repeatMode, _, [] => .error (.needByte 1)
  | .repeatMode, v, c :: rest => .ok (.rep v c, rest)

/-- One token at the head of a stream, and the bytes after it: END first, TOG second, then the mode (R50, R66). -/
def decodeToken (m : Mode) : List Byte → Except DecodeError (Instr × List Byte)
  | [] => .error (.needByte 0)
  | t :: rest =>
    if t = Config.endToken then .ok (.endTok, rest)
    else if t = Config.toggleToken then decodeToggled m rest
    else decodeValue m t rest

/-! ## The table entry -/

/-- PHASE, bits 7:6 of an entry byte (R57). -/
def entryPhase (b : Byte) : Phase := b.extractLsb' (delta% Config.remWidth) _

/-- EOS, bit 5 of an entry byte (R57). -/
def entryEos (b : Byte) : Bool := b.getLsbD (delta% Config.eosBit)

/-- RUN, bits 4:0 of an entry byte (R57). -/
def entryRun (b : Byte) : RunLength := b.extractLsb' 0 _

/-- Every entry byte is one of the four forms: NIL and the reserved entries first, then EOS (R57, R59, R60). -/
def decodeEntry (b : Byte) : Instr :=
  if b = 0 then .nil
  else if entryRun b = 0 then .reservedEntry (entryPhase b) (entryEos b)
  else if entryEos b then .pairLast (entryPhase b) (entryRun b)
  else .pair (entryPhase b) (entryRun b)

/-! ## The operation port -/

/-- Every operation code has a row: five operations and three reserved codes (R62). -/
def decodeOp (p : OpPort) : Instr :=
  if p.op = 0 then .dec p.addr p.extent
  else if p.op = 1 then .enc p.addr p.extent
  else if p.op = 4 then .schedule p.source p.destination p.mode
  else if p.op = 5 then .evolve
  else if p.op = 6 then .frame
  else .reservedOp p.op

/-- The decoder: what a code of one of the three spaces stands for, a token being read under the mode. -/
def decode (m : Mode) : Code → Except DecodeError Instr
  | .stream bytes =>
    match decodeToken m bytes with
    | .ok (i, _) => .ok i
    | .error e => .error e
  | .entry b => .ok (decodeEntry b)
  | .operation p => .ok (decodeOp p)

/-! ## The encoder -/

/-- The byte with the given PHASE, EOS and RUN (R57, R58). -/
def entryByte (p : Phase) (eos : Bool) (r : RunLength) : Byte :=
  (p ++ BitVec.ofBool eos ++ r : BitVec ((delta% Config.phaseWidth) + 1 + (delta% Config.runWidth)))

/-- An operation without operands on the port: the operand values nothing reads are 0. -/
def portOf (op : BitVec 3) : OpPort :=
  { op, addr := 0, extent := 0, source := 0, destination := 0, mode := 0 }

/-- The code of an instruction, from the encodings of R51 to R54, R57, R59, R60 and R62. -/
def encode : Instr → Code
  | .endTok => .stream [Config.endToken]
  | .tog v none => .stream [Config.toggleToken, v]
  | .tog v (some c) => .stream [Config.toggleToken, v, c]
  | .rep v c => .stream [v, c]
  | .lit v => .stream [v]
  | .nil => .entry 0
  | .pair p r => .entry (entryByte p false r)
  | .pairLast p r => .entry (entryByte p true r)
  | .reservedEntry p eos => .entry (entryByte p eos 0)
  | .dec off bound => .operation { portOf 0 with addr := off, extent := bound }
  | .enc src length => .operation { portOf 1 with addr := src, extent := length }
  | .schedule source destination mode => .operation { portOf 4 with source, destination, mode }
  | .evolve => .operation (portOf 5)
  | .frame => .operation (portOf 6)
  | .reservedOp code => .operation (portOf code)

/-- The stream bytes of a token; entries and operations have none. -/
def tokenBytes (i : Instr) : List Byte :=
  match encode i with
  | .stream bytes => bytes
  | .entry _ => []
  | .operation _ => []

/-! ## The opcode table's words -/

/-- Byte `k` of a word numbered as the table numbers it: bit 0 is the least significant bit of byte 0. -/
def wordByte (w k : Nat) : Byte := BitVec.ofNat _ (w >>> ((delta% Config.byteWidth) * k))

/-- The longest token is 3 bytes (R50); a word's first three bytes, in address order. -/
def wordStream (w : Nat) : List Byte := [wordByte w 0, wordByte w 1, wordByte w 2]

/-- A word as an operation: OP in bits 2:0 of byte 0, the operands in the bytes after it in the order R62 lists
them, each from a byte boundary on (log entry 10). -/
def wordPort (w : Nat) : OpPort :=
  { op := BitVec.ofNat 3 w
    addr := BitVec.ofNat _ (w >>> 8)
    extent := BitVec.ofNat _ (w >>> 32)
    source := BitVec.ofNat _ (w >>> 8)
    destination := BitVec.ofNat _ (w >>> 16)
    mode := BitVec.ofNat _ (w >>> 24) }

/-- The encoding space a table word is read in. The three spaces overlap as numbers (0x00 is NIL and DEC, 0xFF is
END and P3x31!), and a word alone does not say which is meant; log entry 10 says how this choice is made: the two
token bytes are tokens, a first byte below 8 is an operation code unless the row is a two-byte token, any other
single byte is a table entry, any other longer word a token. -/
def tableCode (nbits w : Nat) : Code :=
  let first := wordByte w 0
  if first = Config.endToken ∨ first = Config.toggleToken then .stream (wordStream w)
  else if 8 < nbits ∧ nbits ≤ 16 then .stream (wordStream w)
  else if first.toNat < 8 then .operation (wordPort w)
  else if nbits ≤ 8 then .entry first
  else .stream (wordStream w)

/-- The instruction the decoder reads from a word of the opcode table, under the mode a stream starts in (R13). -/
def decodeTableWord (nbits w : Nat) : Option Instr :=
  match decode .repeatMode (tableCode nbits w) with
  | .ok i => some i
  | .error _ => none

end Sys2Proof
end

