-- ==== Sys2Proof/Machine/State.lean ====
section
/-! DEFINITION. The state of the block as plain data: unit C's registers and stream, unit P's registers and stream,
the three memories, the parameters, and the host's moves not yet made (R11, R12, R35, R128); what can stop the model;
and the machine right after reset (R27, R123). -/

namespace Sys2Proof.Machine

/-- CSTATE (R14): the run state of unit C. -/
inductive CState where
  | idle
  | busy
  | done
  | fault
deriving DecidableEq, Repr

/-- PSTATE (R22). -/
inductive PState where
  | ok
  | fault
deriving DecidableEq, Repr

/-- The three addressed memories (R35). -/
inductive Space where
  | imem
  | lut
  | moff
deriving DecidableEq, Repr

/-- The two units of the block (R1). -/
inductive HwUnit where
  | codec
  | player
deriving DecidableEq, Repr

/-- What the host can read: a register, a stream or a byte of a memory (R26). -/
inductive Reg where
  | mode | cur | bound | cstate | ccause | ckind | cinfo | out
  | outer | inner | ph0 | ph1 | sel | row | pstate | pcause | pkind | pinfo | hist
  | memory (space : Space) (a : Nat)
deriving DecidableEq, Repr

/-- One move of the host (R128). -/
inductive HostMove where
  /-- The RESET input (R123). -/
  | reset
  /-- An operation code with its operands (R62). -/
  | operation (p : OpPort)
  /-- Store a byte in IMEM, in LUT (at its flat index, R38) or in MOFF. -/
  | write (space : Space) (a : Nat) (b : Byte)
  /-- Read a register, a stream or a byte of a memory (R26). -/
  | read (r : Reg)
deriving DecidableEq, Repr

/-- A memory: the bytes the host has stored, by address. An address not listed has no value (R125; log entry 3).
`Memory.wf` is its canonical form. -/
abbrev Memory := List Host.Cell

/-- Unit C's registers and its output stream (R11, R13 to R17, R37). -/
structure UnitC where
  /-- MODE, the mode flag (R13). -/
  mode : Mode
  /-- CUR, the stream cursor (R17). -/
  cur : Nat
  /-- BOUND, the first address the operation may not read (R16). -/
  bound : Nat
  /-- CSTATE (R14). -/
  cstate : CState
  /-- CCAUSE (R15, R108). -/
  ccause : BitVec 3
  /-- CKIND (R15, R110). -/
  ckind : BitVec 2
  /-- CINFO, the recorded address (R15). -/
  cinfo : Nat
  /-- OUT, the output stream (R37). -/
  out : List Byte
  /-- The model's own: the operand `src` of the ENC in progress, none while a DEC is (R82; log entry 7). -/
  encSrc : Option Nat
deriving DecidableEq, Repr

/-- Unit P's registers and its output stream (R11, R18 to R22, R37). -/
structure UnitP where
  /-- OUTER: DB in bit 7, IDX in bits 6:0 (R18). -/
  outer : OuterWord
  /-- INNER: PHASE in bits 7:6, REM in bits 5:0 (R19). -/
  inner : Byte
  /-- PH[0] (R20). -/
  ph0 : Phase
  /-- PH[1] (R20). -/
  ph1 : Phase
  /-- SEL, the active slot (R20): false is slot 0, true is slot 1. -/
  sel : Bool
  /-- ROW: S in bits 7:4, D in bits 3:0 (R21). -/
  row : RowPair
  /-- PSTATE (R22). -/
  pstate : PState
  /-- PCAUSE (R22, R108). -/
  pcause : BitVec 3
  /-- PKIND (R22, R110). -/
  pkind : BitVec 2
  /-- PINFO (R22, R110). -/
  pinfo : BitVec 8
  /-- HIST, the emitted phases (R37). -/
  hist : List Phase
deriving DecidableEq, Repr

/-- The three memories (R35). -/
structure Memories where
  /-- IMEM, by address (R36). -/
  imem : Memory
  /-- LUT, by flat index (R38). -/
  lut : Memory
  /-- MOFF, by mode number (R40). -/
  moff : Memory
deriving DecidableEq, Repr

/-- The whole machine. -/
structure State where
  /-- The parameters (R6, R12). No step changes them. -/
  cfg : Config
  /-- Unit C. -/
  c : UnitC
  /-- Unit P. -/
  p : UnitP
  /-- The memories. -/
  mem : Memories
  /-- The model's own: the host's moves not yet made, the next one first (R128; log entry 2). -/
  host : List HostMove
deriving DecidableEq, Repr

/-- What stops the model. The exceptions of the block (R108) are none of these: they are next states. -/
inductive Fault where
  /-- An operation needs a byte the host never stored; such an operation has no defined result (R125). Raised by the
  token fetch, ENC, the encoder steps, SCHEDULE and EVOLVE case E3. Safe: the model stops. Log entry 3. -/
  | unloadedByte (space : Space) (a : Nat)
  /-- The host stores to an address its memory does not have (R35). Raised by a host write. Safe: the model stops.
  Log entry 13. -/
  | noSuchAddress (space : Space) (a : Nat)
deriving DecidableEq, Repr

/-- Why an instruction has no meaning. -/
inductive Refusal where
  /-- The instruction's row has no meaning in this model yet. Raised by an arm of `exec` alone; no arm raises it
  now. Safe: the model stops. -/
  | notModelled (mnemonic : String)
deriving DecidableEq, Repr

/-- Unit C after reset (R27). -/
def UnitC.atReset : UnitC :=
  { mode := .repeatMode, cur := 0, bound := 0, cstate := .idle, ccause := 0, ckind := 0, cinfo := 0, out := []
    encSrc := none }

/-- Unit P after reset (R27). -/
def UnitP.atReset : UnitP :=
  { outer := 0, inner := 0, ph0 := 0, ph1 := 0, sel := false, row := 0, pstate := .ok, pcause := 0, pkind := 0
    pinfo := 0, hist := [] }

/-- The canonical form of a memory: addresses strictly rising. (An unlisted address has no value, so no entry can
equal what it reads as.) -/
def Memory.wf : Memory → Bool
  | [] => true
  | [_] => true
  | x :: y :: m => x.1 < y.1 && Memory.wf (y :: m)

/-- The machine right after reset (R27, R123), no byte loaded (R125) and no move of the host pending. Its parameters
are `Config.atReset` (log entry 4). -/
def State.reset : State :=
  { cfg := Config.atReset, c := UnitC.atReset, p := UnitP.atReset, mem := { imem := [], lut := [], moff := [] }
    host := [] }

end Sys2Proof.Machine
end

