-- ==== Sys2Proof/Machine/Operands.lean ====
section
/-! DEFINITION. Operand assembly and the fields of unit P's registers: the count of a REP (R53), the row of a
SCHEDULE and the flat index of a table slot (R38, R63), PHASE and REM of an entry as unit P splits it (R57), and
DB, IDX, S and D (R18, R21). -/

namespace Sys2Proof.Machine

/-- The copies a count byte stands for: `zext_9(c) + 1`, 1 to 256 (R53, R70). -/
def copies (c : Byte) : Nat := c.toNat + 1

/-- `{source[4:1], destination[4:1]}`: bit 0 of each gray level is dropped (R63, R92, D16). -/
def rowOf (source destination : Level) : RowPair :=
  ((source.extractLsb' 1 _ : RowNumber) ++ (destination.extractLsb' 1 _ : RowNumber) :
    BitVec ((delta% Config.rowWidth) + (delta% Config.rowWidth)))

/-- ROW.S, bits 7:4 (R21). -/
def rowS (row : RowPair) : Nat := (row.extractLsb' (delta% Config.rowWidth) _ : RowNumber).toNat

/-- ROW.D, bits 3:0 (R21). -/
def rowD (row : RowPair) : Nat := (row.extractLsb' 0 _ : RowNumber).toNat

/-- `flat(s, d, k) = (s * 16 + d) * 64 + k` (R38). -/
def flatIndex (s d k : Nat) : Nat := (s * Config.rows + d) * Config.slots + k

/-- The flat index of slot `k` of a latched row (R38, R39). -/
def slotIndex (row : RowPair) (k : Nat) : Nat := flatIndex (rowS row) (rowD row) k

/-- REM, bits 5:0 of INNER or of a loaded byte: `{EOS, RUN}` (R19, R57). -/
def remOf (b : Byte) : Remainder := b.extractLsb' 0 _

/-- PHASE, bits 7:6 of INNER or of a loaded byte (R19, R57). -/
def phaseOf (b : Byte) : Phase := entryPhase b

/-- `{PHASE, REM - 1}`: INNER counted down by one (R94, R97). -/
def countDown (b : Byte) : Byte :=
  (phaseOf b ++ (remOf b - 1) : BitVec ((delta% Config.phaseWidth) + (delta% Config.remWidth)))

/-- OUTER.IDX, bits 6:0 (R18). -/
def idxOf (outer : OuterWord) : SeqIndex := outer.extractLsb' 0 _

/-- OUTER.DB, bit 7 (R18). -/
def dbOf (outer : OuterWord) : Bool := outer.getLsbD (delta% Config.idxWidth)

/-- `{db, idx}` (R18). -/
def outerOf (db : Bool) (idx : SeqIndex) : OuterWord :=
  (BitVec.ofBool db ++ idx : BitVec (1 + (delta% Config.idxWidth)))

end Sys2Proof.Machine
end

