-- ==== Sys2Proof/Machine/Flags.lean ====
section
/-! DEFINITION. The flags of R23 and how each is computed: MODE, OUTER.DB, SEL, and the number codes of the flags and
states a host reads (R13, R14, R20, R22). -/

namespace Sys2Proof.Machine

/-- MODE inverted (R68). -/
def flipMode : Mode → Mode
  | .repeatMode => .literalMode
  | .literalMode => .repeatMode

/-- DB of a scheduled entry: set iff the loaded byte's low 6 bits exceed 1 (R92). -/
def loadedDb (b : Byte) : Bool := 1 < (remOf b).toNat

/-- OUTER with DB cleared, IDX kept (R94). -/
def clearDb (outer : OuterWord) : OuterWord := outerOf false (idxOf outer)

/-- SEL inverted (R99). -/
def flipSel (sel : Bool) : Bool := !sel

/-- MODE as a number: 0 = REPEAT, 1 = LITERAL (R13). -/
def modeCode : Mode → Nat
  | .repeatMode => 0
  | .literalMode => 1

/-- CSTATE as a number (R14). -/
def cstateCode : CState → Nat
  | .idle => 0
  | .busy => 1
  | .done => 2
  | .fault => 3

/-- PSTATE as a number (R22). -/
def pstateCode : PState → Nat
  | .ok => 0
  | .fault => 1

/-- Unit C accepts a DEC or an ENC: CSTATE is C_IDLE or C_DONE (R14, R65, R81). -/
def accepts : CState → Bool
  | .idle => true
  | .busy => false
  | .done => true
  | .fault => false

end Sys2Proof.Machine
end

