-- ==== Sys2Proof/Machine/Ops.lean ====
section
/-! DEFINITION. The named operations over memories and registers: reading and storing a byte, the bounds-checked read
of IMEM (R36) and the slot-checked read of LUT (R39), the outputs (R37), the phase slots (R98), taking an exception
(R112, R113), and RESET, the only return from one (R115, R123). -/

namespace Sys2Proof.Machine

/-- An outcome of the machine. -/
abbrev Result := Host.Outcome State Fault Refusal

/-! ## Memory -/

/-- The byte stored at an address, if any (R125). -/
def Memory.read : Memory → Nat → Option Byte
  | [], _ => none
  | x :: m, a => if x.1 = a then some x.2 else Memory.read m a

/-- Store a byte, keeping the addresses rising. -/
def Memory.store : Memory → Nat → Byte → Memory
  | [], a, b => [(a, b)]
  | x :: m, a, b =>
    if a < x.1 then (a, b) :: x :: m
    else if a = x.1 then (a, b) :: m
    else x :: Memory.store m a b

/-- The bytes at `a, a + 1, …, a + n - 1`, if every one is stored. -/
def Memory.readRange (m : Memory) : Nat → Nat → Option (List Byte)
  | _, 0 => some []
  | a, n + 1 =>
    match Memory.read m a, Memory.readRange m (a + 1) n with
    | some b, some bs => some (b :: bs)
    | _, _ => none

/-- One of the three memories (R35). -/
def Memories.get (m : Memories) : Space → Memory
  | .imem => m.imem
  | .lut => m.lut
  | .moff => m.moff

/-- The memories with one of them replaced. -/
def Memories.set (m : Memories) (space : Space) (x : Memory) : Memories :=
  match space with
  | .imem => { m with imem := x }
  | .lut => { m with lut := x }
  | .moff => { m with moff := x }

/-- The size of a memory (R35). -/
def spaceSize (cfg : Config) : Space → Nat
  | .imem => cfg.imemSize
  | .lut => Config.lutBytes
  | .moff => cfg.numModes

/-! ## Taking an exception -/

/-- The exceptions the block raises, with the value each records (R109, R110). -/
inductive Exc where
  /-- TruncatedInputError(a) (R109). -/
  | truncated (a : Nat)
  /-- RangeError(MODE_INDEX, mode) (R110). -/
  | modeIndex (mode : Nat)
  /-- RangeError(LUT_INDEX, slot) (R110). -/
  | lutIndex (slot : Nat)
  /-- RangeError(RESERVED_VALUE, a) (R110). -/
  | reservedValue (a : Nat)
deriving DecidableEq, Repr

/-- The four names of the taxonomy (R108). The block never raises the first two (R111). -/
inductive Cause where
  | formatError
  | checksumError
  | truncatedInputError
  | rangeError
deriving DecidableEq, Repr

/-- The cause codes (R108). -/
def causeCode : Cause → BitVec 3
  | .formatError => 1
  | .checksumError => 2
  | .truncatedInputError => 3
  | .rangeError => 4

/-- Which name of the taxonomy an exception bears (R109, R110). -/
def excCause : Exc → Cause
  | .truncated _ => .truncatedInputError
  | .modeIndex _ => .rangeError
  | .lutIndex _ => .rangeError
  | .reservedValue _ => .rangeError

/-- The kind code: 0 for TruncatedInputError (R110). -/
def excKind : Exc → BitVec 2
  | .truncated _ => 0
  | .modeIndex _ => 1
  | .lutIndex _ => 2
  | .reservedValue _ => 3

/-- The recorded value (R109, R110). -/
def excInfo : Exc → Nat
  | .truncated a => a
  | .modeIndex mode => mode
  | .lutIndex slot => slot
  | .reservedValue a => a

/-- Taking an exception in a unit (R113): the unit's state becomes its fault state and its cause, kind and info
registers are written. Nothing else changes (R112); there is no handler, vector or saved counter. -/
def takeException (u : HwUnit) (e : Exc) (s : State) : State :=
  match u with
  | .codec =>
    { s with c := { s.c with
        cstate := .fault, ccause := causeCode (excCause e), ckind := excKind e, cinfo := excInfo e } }
  | .player =>
    { s with p := { s.p with
        pstate := .fault, pcause := causeCode (excCause e), pkind := excKind e
        pinfo := BitVec.ofNat 8 (excInfo e) } }

/-- RESET (R123): every register and both streams take their reset values; the memories and the parameters stay.
It is the only way out of a fault (R115). -/
def applyReset (s : State) : State := { s with c := UnitC.atReset, p := UnitP.atReset }

/-! ## The bounds-checked read of IMEM -/

/-- The first address unit C may not read: `min(BOUND, IMEM_SIZE)` (R16). -/
def limit (s : State) : Nat := min s.c.bound s.cfg.imemSize

/-- What `Fetch(a)` finds (R36). -/
inductive Fetched where
  /-- The byte. -/
  | byte (b : Byte)
  /-- `a` is at or beyond BOUND or IMEM_SIZE: TruncatedInputError(a). -/
  | beyond
  /-- `a` is in range and the host never stored a byte there (R125). -/
  | unloaded
deriving DecidableEq, Repr

/-- `Fetch(a)` (R36). -/
def fetch (s : State) (a : Nat) : Fetched :=
  if limit s ≤ a then .beyond
  else
    match Memory.read s.mem.imem a with
    | some b => .byte b
    | none => .unloaded

/-! ## The slot-checked read of LUT -/

/-- What `LutFetch(k)` finds (R39). -/
inductive Slot where
  /-- The entry byte. -/
  | entry (b : Byte)
  /-- `k` is outside the row: RangeError(LUT_INDEX, k). -/
  | outside
  /-- The slot is in the row and the host never stored a byte there (R125). -/
  | unloaded
deriving DecidableEq, Repr

/-- `LutFetch(k)` in a given row (R39). -/
def lutFetch (s : State) (row : RowPair) (k : Nat) : Slot :=
  if Config.slots ≤ k then .outside
  else
    match Memory.read s.mem.lut (slotIndex row k) with
    | some b => .entry b
    | none => .unloaded

/-! ## The outputs -/

/-- `Emit(OUT, v)` for each byte in turn (R37). -/
def emitOut (bs : List Byte) (s : State) : State := { s with c := { s.c with out := s.c.out ++ bs } }

/-- `Emit(HIST, p)` (R37). -/
def emitHist (ph : Phase) (s : State) : State := { s with p := { s.p with hist := s.p.hist ++ [ph] } }

/-! ## Registers -/

/-- `MODE <- m`. -/
def setMode (m : Mode) (s : State) : State := { s with c := { s.c with mode := m } }

/-- `CUR <- a`. -/
def setCur (a : Nat) (s : State) : State := { s with c := { s.c with cur := a } }

/-- `CSTATE <- x`. -/
def setCState (x : CState) (s : State) : State := { s with c := { s.c with cstate := x } }

/-- The register writes that open a DEC or an ENC (R65, R81): MODE to REPEAT, CUR and BOUND to the operands, OUT
emptied, CSTATE to C_BUSY; and which of the two it is (log entry 7). -/
def openRun (cur bound : Nat) (encSrc : Option Nat) (s : State) : State :=
  { s with c := { s.c with mode := .repeatMode, cur, bound, cstate := .busy, out := [], encSrc } }

/-- PH[SEL], the slot the next FRAME emits (R20). -/
def activePhase (p : UnitP) : Phase := if p.sel then p.ph1 else p.ph0

/-- `PH[SEL] <- ph`; the other slot is never written (R98). -/
def setActivePhase (ph : Phase) (p : UnitP) : UnitP :=
  if p.sel then { p with ph1 := ph } else { p with ph0 := ph }

/-- OUTER and INNER written and the resulting PHASE put in the active slot: how SCHEDULE and every EVOLVE but case
E1 end (R98). -/
def setCounters (outer : OuterWord) (inner : Byte) (s : State) : State :=
  { s with p := setActivePhase (phaseOf inner) { s.p with outer, inner } }

/-- The numbers a host reads (R26): one for a register, by the codes of R13, R14 and R22; a stream's elements in
order; a byte of a memory, if the host stored one there (R125). -/
def hostRead (s : State) : Reg → List Nat
  | .mode => [modeCode s.c.mode]
  | .cur => [s.c.cur]
  | .bound => [s.c.bound]
  | .cstate => [cstateCode s.c.cstate]
  | .ccause => [s.c.ccause.toNat]
  | .ckind => [s.c.ckind.toNat]
  | .cinfo => [s.c.cinfo]
  | .out => s.c.out.map BitVec.toNat
  | .outer => [s.p.outer.toNat]
  | .inner => [s.p.inner.toNat]
  | .ph0 => [s.p.ph0.toNat]
  | .ph1 => [s.p.ph1.toNat]
  | .sel => [s.p.sel.toNat]
  | .row => [s.p.row.toNat]
  | .pstate => [pstateCode s.p.pstate]
  | .pcause => [s.p.pcause.toNat]
  | .pkind => [s.p.pkind.toNat]
  | .pinfo => [s.p.pinfo.toNat]
  | .hist => s.p.hist.map BitVec.toNat
  | .memory space a => (Memory.read (s.mem.get space) a).toList.map BitVec.toNat

end Sys2Proof.Machine
end

