-- ==== Sys2Proof/Machine/Encoder.lean ====
section
/-! DEFINITION. Unit C's encode side after an ENC is accepted: the input check (R81, R86) and the encoder step, one
segment or the end at a time (R82 to R85). -/

namespace Sys2Proof.Machine

/-- What the input check of an ENC finds (R81). -/
inductive InputCheck where
  /-- Every value may be encoded. -/
  | clean
  /-- The exception of the lowest offending address. -/
  | raises (e : Exc)
  /-- An address in range where the host stored nothing (R125). -/
  | unloaded (a : Nat)
deriving DecidableEq, Repr

/-- A value that no token position can carry: END_TOKEN or TOGGLE_TOKEN (R86). -/
def reserved (v : Byte) : Bool := v = Config.endToken || v = Config.toggleToken

/-- The check of the `n` input addresses from `a` on, ascending, readability before value (R81, R116). -/
def checkInput (s : State) : Nat → Nat → InputCheck
  | _, 0 => .clean
  | a, n + 1 =>
    match fetch s a with
    | .beyond => .raises (.truncated a)
    | .unloaded => .unloaded a
    | .byte v => if reserved v then .raises (.reservedValue a) else checkInput s (a + 1) n

/-- How many of the `n` addresses from `a` on hold `v` before the first that does not: `runlen` counts with it
(R82). -/
def countEqual (m : Memory) (v : Option Byte) : Nat → Nat → Nat
  | _, 0 => 0
  | a, n + 1 => if Memory.read m a = v then countEqual m v (a + 1) n + 1 else 0

/-- `runlen(a)`: the length of the run of equal values that starts at `a` and ends at or before BOUND (R82). -/
def runLength (m : Memory) (a bound : Nat) : Nat := countEqual m (Memory.read m a) a (bound - a)

/-- `single(j)`: the value at `j` equals neither neighbour inside the input (R82). -/
def single (m : Memory) (src bound j : Nat) : Bool :=
  (j = src || Memory.read m (j - 1) ≠ Memory.read m j) &&
    (j = bound - 1 || Memory.read m (j + 1) ≠ Memory.read m j)

/-- How many of the `n` addresses from `a` on are single before the first that is not. -/
def countSingles (m : Memory) (src bound : Nat) : Nat → Nat → Nat
  | _, 0 => 0
  | a, n + 1 => if single m src bound a then countSingles m src bound (a + 1) n + 1 else 0

/-- `stretchlen(a)` (R82). The rule defines it where `single(a)` holds, and there it is at least 1; where it does not,
a shape no run reaches, the length 1 is the model's choice (log entry 15). -/
def stretchLength (m : Memory) (src bound a : Nat) : Nat :=
  max 1 (countSingles m src bound a (bound - a))

/-- The tokens of a repeated run of `n` copies of `v`: full chunks `v 0xFF` while more than 256 remain, then one
chunk `v (k - 1)` of the 1 to 256 left (R83, C2). -/
def chunks (v : Byte) (n : Nat) : List Byte :=
  (List.replicate ((n - 1) / Config.maxCopies) [v, BitVec.ofNat _ (delta% Config.countMax)]).flatten ++
    [v, BitVec.ofNat _ (n - Config.maxCopies * ((n - 1) / Config.maxCopies) - 1)]

/-- The toggle emitted when MODE is `old` and becomes `new` (R83, R84). -/
def toggleFor (old new : Mode) : List Byte := if old = new then [] else [Config.toggleToken]

/-- `EncRun(v, n)`: back to REPEAT if need be, then the run's chunks (R83). -/
def encRun (v : Byte) (n : Nat) (s : State) : State :=
  setCur (s.c.cur + n) (setMode .repeatMode (emitOut (toggleFor s.c.mode .repeatMode ++ chunks v n) s))

/-- The mode a stretch of `m` singles is emitted in: LITERAL once `m` reaches the threshold (R84). -/
def stretchMode (s : State) (m : Nat) : Mode :=
  if s.cfg.threshold.toNat ≤ m then .literalMode else s.c.mode

/-- What a stretch emits in a mode: its values as LIT tokens, or its first value as a REP with count 0 (R84). -/
def stretchBody : Mode → List Byte → List Byte
  | .literalMode, ws => ws
  | .repeatMode, ws => ws.take 1 ++ [0]

/-- `EncStretch(m)`, the `m` values read from IMEM being `ws` (R84). -/
def encStretch (ws : List Byte) (s : State) : State :=
  let mode := stretchMode s ws.length
  setCur (s.c.cur + ws.length) (setMode mode (emitOut (toggleFor s.c.mode mode ++ stretchBody mode ws) s))

/-- `EncEnd()` (R85). -/
def encEnd (s : State) : State := setCState .done (emitOut [Config.endToken] s)

/-- `EncStep()`: finish, or encode the one segment that starts at CUR (R82). `src` is the operand of the ENC in
progress. Every byte of the input was fetched by the check, so no exception can arise; a byte the host never stored
stops the model, in a state no run reaches (log entry 15). -/
def encStep (src : Nat) (s : State) : Result :=
  if s.c.bound ≤ s.c.cur then .next (encEnd s)
  else
    let n := runLength s.mem.imem s.c.cur s.c.bound
    let m := if 2 ≤ n then 1 else stretchLength s.mem.imem src s.c.bound s.c.cur
    match Memory.readRange s.mem.imem s.c.cur m with
    | none => .fault (.unloadedByte .imem s.c.cur)
    | some ws => .next (if 2 ≤ n then encRun (ws.headD 0) n s else encStretch ws s)

end Sys2Proof.Machine
end

