-- ==== Sys2Proof/Machine/Entries.lean ====
section
/-! DEFINITION. What EVOLVE does with the entry being played (R93 to R98), and with it the meanings of the four entry
rows of the opcode table: an entry's meaning is one EVOLVE with that entry as the current one (log entry 9). -/

namespace Sys2Proof.Machine

/-- Case E2 (R94): count down, clear DB. -/
def evolveE2 (b : Byte) (s : State) : State := setCounters (clearDb s.p.outer) (countDown b) s

/-- Case E3 (R95): load the next slot of the latched row and flag double-buffering, or RangeError(LUT_INDEX) when
there is none. -/
def evolveE3 (s : State) : Result :=
  let k := (idxOf s.p.outer).toNat + 1
  match lutFetch s s.p.row k with
  | .outside => .next (takeException .player (.lutIndex k) s)
  | .unloaded => .fault (.unloadedByte .lut (slotIndex s.p.row k))
  | .entry b => .next (setCounters (outerOf true (BitVec.ofNat _ k)) b s)

/-- Case E4 (R96): back to idle, phase 0. -/
def evolveE4 (s : State) : State := setCounters 0 0 s

/-- Case E5 (R97): count down, OUTER unchanged (D19). -/
def evolveE5 (b : Byte) (s : State) : State := setCounters s.p.outer (countDown b) s

/-- `EVOLVE` with `b` in INNER: the fault gate, then the five cases in their order (R93, R114). -/
def evolveWith (b : Byte) (s : State) : Result :=
  if s.p.pstate = .fault then .next s
  else if s.p.outer = 0 then .next s
  else if 1 < (remOf b).toNat ∧ dbOf s.p.outer = true then .next (evolveE2 b s)
  else if remOf b = 1 then evolveE3 s
  else if remOf b = 0 then .next (evolveE4 s)
  else .next (evolveE5 b s)

/-- NIL: REM = 0, case E4 (R59, R96). -/
def execNil (s : State) : Result := evolveWith 0 s

/-- P<p>x<r>: REM = r (R57, R93). -/
def execPair (p : Phase) (r : RunLength) (s : State) : Result := evolveWith (entryByte p false r) s

/-- P<p>x<r>!: REM = 32 + r, the EOS bit having no role of its own (R57, R93, R104, C1). -/
def execPairLast (p : Phase) (r : RunLength) (s : State) : Result := evolveWith (entryByte p true r) s

/-- reserved-entry: the ordinary rules, with REM = 0 or 32 (R60). -/
def execReservedEntry (p : Phase) (eos : Bool) (s : State) : Result := evolveWith (entryByte p eos 0) s

end Sys2Proof.Machine
end

