-- ==== Sys2Proof/Machine/Operations.lean ====
section
/-! DEFINITION. The meanings of the five operations and of the reserved operation codes (R62). -/

namespace Sys2Proof.Machine

/-- DEC (R65): accepted in C_IDLE and C_DONE, it opens the run, whose steps follow one token a step (R66; log
entry 1); otherwise no state change (R114). -/
def execDec (off : Addr) (bound : Extent) (s : State) : Result :=
  if accepts s.c.cstate then .next (openRun off.toNat bound.toNat none s) else .next s

/-- ENC (R81): accepted in C_IDLE and C_DONE, it opens the run and checks the whole input; the encoder's steps
follow (R82; log entry 1). When the check raises, the opening writes stand (R112). -/
def execEnc (src : Addr) (length : Extent) (s : State) : Result :=
  if accepts s.c.cstate then
    let opened := openRun src.toNat (src.toNat + length.toNat) (some src.toNat) s
    match checkInput opened src.toNat length.toNat with
    | .clean => .next opened
    | .raises e => .next (takeException .codec e opened)
    | .unloaded a => .fault (.unloadedByte .imem a)
  else .next s

/-- SCHEDULE (R92): dropped in fault or when not idle; then MODE_INDEX, then LUT_INDEX, then the entry is loaded
(R116). -/
def execSchedule (source destination : Level) (mode : Byte) (s : State) : Result :=
  if s.p.pstate = .fault then .next s
  else if s.p.outer ≠ 0 then .next s
  else if s.cfg.numModes ≤ mode.toNat then .next (takeException .player (.modeIndex mode.toNat) s)
  else
    match Memory.read s.mem.moff mode.toNat with
    | none => .fault (.unloadedByte .moff mode.toNat)
    | some o =>
      let row := rowOf source destination
      match lutFetch s row o.toNat with
      | .outside => .next (takeException .player (.lutIndex o.toNat) s)
      | .unloaded => .fault (.unloadedByte .lut (slotIndex row o.toNat))
      | .entry b =>
        .next (setCounters (outerOf (loadedDb b) (o.setWidth _)) b { s with p := { s.p with row } })

/-- EVOLVE (R93): the entry in INNER for one frame. -/
def execEvolve (s : State) : Result := evolveWith s.p.inner s

/-- FRAME (R99): emit the active slot's phase, swap the slots. -/
def execFrame (s : State) : Result :=
  if s.p.pstate = .fault then .next s
  else
    let t := emitHist (activePhase s.p) s
    .next { t with p := { t.p with sel := flipSel t.p.sel } }

/-- A reserved operation code: no state change, no fault (R62). The three codes act alike. -/
def execReservedOp (_code : BitVec 3) (s : State) : Result := .next s

end Sys2Proof.Machine
end

