-- ==== Sys2Proof/Machine/Tokens.lean ====
section
/-! DEFINITION. The meanings of the four stream tokens (R66 to R70). A token's operand bytes come with it from the
decoder; where the spec has the token read them, the address is checked first, so a token whose bytes lie at or
beyond the limit raises and has no other effect (R66, R112; log entry 8). -/

namespace Sys2Proof.Machine

/-- `LitToken(a, v)`: emit once, advance past the value (R69). -/
def litToken (a : Nat) (v : Byte) (s : State) : State := setCur (a + 1) (emitOut [v] s)

/-- `RepToken(a, v)` once its count byte is read: emit `c + 1` copies, advance past both bytes (R70). -/
def repToken (a : Nat) (v c : Byte) (s : State) : State :=
  setCur (a + 2) (emitOut (List.replicate (copies c) v) s)

/-- The next state `t`, provided each of the addresses is below the limit; else TruncatedInputError at the first
that is not (R36, R116), with no other effect (R112). -/
def provided (addresses : List Nat) (t : State) (s : State) : Result :=
  match addresses.find? (fun a => limit s ≤ a) with
  | some a => .next (takeException .codec (.truncated a) s)
  | none => .next t

/-- END (R67): the run is done; CUR, MODE and OUT stay. -/
def execEndTok (s : State) : Result := .next (setCState .done s)

/-- LIT (R69). -/
def execLit (v : Byte) (s : State) : Result := .next (litToken s.c.cur v s)

/-- REP (R70). -/
def execRep (v c : Byte) (s : State) : Result := provided [s.c.cur + 1] (repToken s.c.cur v c s) s

/-- TOG (R68): with a value alone, MODE becomes LITERAL and the value is a LIT; with a value and a count byte, MODE
becomes REPEAT and the two are a REP. The decoder reads the first form in REPEAT mode and the second in LITERAL
mode, so MODE is inverted. -/
def execTog (v : Byte) (count : Option Byte) (s : State) : Result :=
  match count with
  | none => provided [s.c.cur + 1] (litToken (s.c.cur + 1) v (setMode .literalMode s)) s
  | some c => provided [s.c.cur + 1, s.c.cur + 2] (repToken (s.c.cur + 1) v c (setMode .repeatMode s)) s

end Sys2Proof.Machine
end

