-- ==== Sys2Proof/Machine/Dispatch.lean ====
section
/-! DEFINITION. One arm per constructor of Instr, each one call of its meaning. -/

namespace Sys2Proof.Machine

def exec (i : Instr) (s : State) : Host.Outcome State Fault Refusal :=
  match i with
  -- stream tokens
  | .endTok => Sys2Proof.Machine.execEndTok s
  | .tog v count => Sys2Proof.Machine.execTog v count s
  | .rep v c => Sys2Proof.Machine.execRep v c s
  | .lit v => Sys2Proof.Machine.execLit v s
  -- table entries
  | .nil => Sys2Proof.Machine.execNil s
  | .pair p r => Sys2Proof.Machine.execPair p r s
  | .pairLast p r => Sys2Proof.Machine.execPairLast p r s
  | .reservedEntry p eos => Sys2Proof.Machine.execReservedEntry p eos s
  -- operations
  | .dec off bound => Sys2Proof.Machine.execDec off bound s
  | .enc src length => Sys2Proof.Machine.execEnc src length s
  | .schedule source destination mode => Sys2Proof.Machine.execSchedule source destination mode s
  | .evolve => Sys2Proof.Machine.execEvolve s
  | .frame => Sys2Proof.Machine.execFrame s
  | .reservedOp code => Sys2Proof.Machine.execReservedOp code s

end Sys2Proof.Machine
end

