-- ==== Sys2Proof/Machine/Fetch.lean ====
section
/-! DEFINITION. What the machine does next: the next token of a running DEC, the next segment of a running ENC, or
the host's next move (R14, R66, R82, R128); and how an instruction's word is put where the machine reads it. -/

namespace Sys2Proof.Machine

/-- What a step does. -/
inductive Issue where
  /-- Run an instruction in a state. -/
  | run (i : Instr) (s : State)
  /-- No instruction is read: the outcome of the step. -/
  | settled (r : Result)
deriving Repr

/-- The `n` bytes unit C can fetch from `a` on, up to the first it cannot (R36). -/
def window (s : State) : Nat → Nat → List Byte
  | _, 0 => []
  | a, n + 1 =>
    match fetch s a with
    | .byte b => b :: window s (a + 1) n
    | .beyond => []
    | .unloaded => []

/-- The bytes of the token at CUR: at most three (R50). -/
def tokenWindow (s : State) : List Byte := window s s.c.cur 3

/-- The decoder step's reads (R66): the token at CUR. A byte it needs and cannot fetch raises TruncatedInputError at
that byte's address, the lowest such (R116), with no other effect (R112). -/
def tokenIssue (s : State) : Issue :=
  match decodeToken s.c.mode (tokenWindow s) with
  | .ok (i, _) => .run i s
  | .error (.needByte k) =>
    if limit s ≤ s.c.cur + k then .settled (.next (takeException .codec (.truncated (s.c.cur + k)) s))
    else .settled (.fault (.unloadedByte .imem (s.c.cur + k)))

/-- A host store (R26, R128). It is never checked against a playback in progress: what a later step loads is what
the table then holds (R137). -/
def hostWrite (space : Space) (a : Nat) (b : Byte) (s : State) : Result :=
  if a < spaceSize s.cfg space then
    .next { s with mem := s.mem.set space (Memory.store (s.mem.get space) a b) }
  else .fault (.noSuchAddress space a)

/-- The host's next move, taken off its list; with none left the machine waits (R124, R128). -/
def hostIssue (s : State) : Issue :=
  match s.host with
  | [] => .settled (.next s)
  | move :: later =>
    let t := { s with host := later }
    match move with
    | .reset => .settled (.next (applyReset t))
    | .operation p => .run (decodeOp p) t
    | .write space a b => .settled (hostWrite space a b t)
    | .read _ => .settled (.next t)

/-- While unit C is C_BUSY its operation goes on and the host makes no move; otherwise the host's next move (R14,
R48, R131). -/
def nextIssue (s : State) : Issue :=
  if s.c.cstate = .busy then
    match s.c.encSrc with
    | some src => .settled (encStep src s)
    | none => tokenIssue s
  else hostIssue s

/-! ## Placing an instruction's word -/

/-- Bytes stored at consecutive addresses. -/
def storeBytes (m : Memory) : Nat → List Byte → Memory
  | _, [] => m
  | a, b :: bs => storeBytes (Memory.store m a b) (a + 1) bs

/-- The state in which the next step runs what a code stands for (log entry 10). Stream bytes: a DEC just opened at
CUR, the bytes in IMEM from there on and readable. An entry: the entry being played, at slot 1 of the latched row,
and an EVOLVE as the host's next move. An operation: the host's next move. -/
def placeCode (code : Code) (s : State) : State :=
  match code with
  | .stream bytes =>
    let top := s.c.cur + bytes.length
    { s with
      cfg := { s.cfg with imemSize := max s.cfg.imemSize top }
      c := { s.c with mode := .repeatMode, bound := max s.c.bound top, cstate := .busy, encSrc := none }
      mem := { s.mem with imem := storeBytes s.mem.imem s.c.cur bytes } }
  | .entry b =>
    { s with
      c := { s.c with cstate := if s.c.cstate = .busy then .done else s.c.cstate }
      p := { s.p with outer := outerOf (loadedDb b) 1, inner := b, pstate := .ok }
      mem := { s.mem with lut := Memory.store s.mem.lut (slotIndex s.p.row 1) b }
      host := .operation (portOf 5) :: s.host }
  | .operation p =>
    { s with
      c := { s.c with cstate := if s.c.cstate = .busy then .done else s.c.cstate }
      host := .operation p :: s.host }

end Sys2Proof.Machine
end

