-- ==== Sys2Proof/Machine/Step.lean ====
section
/-! DEFINITION. One step of the machine, and the placing of an opcode-table word where the next step reads it. -/

namespace Sys2Proof.Machine

/-- One step: the next instruction run, or the move or encoder step that stands next (R48, R66, R82, R128). -/
def step (s : State) : Host.Outcome State Fault Refusal :=
  match nextIssue s with
  | .run i t => exec i t
  | .settled r => r

/-- The state whose next step runs the instruction `decodeTableWord nbits w` reads (log entry 10). -/
def State.withFetchWord (s : State) (nbits w : Nat) : State := placeCode (tableCode nbits w) s

end Sys2Proof.Machine
end

