-- ==== Sys2Proof/Machine/Reference.lean ====
section
/-! DEFINITION. The functions the spec states whole runs with: the decoder's closed form (R72), well-formed streams
(R56), the segments of an input and the encoder's closed form (R80, R87), and packing and expanding a Summary (R58,
R61), with the host's moves a playback is made of (R101). No step of the machine calls any of them. -/

namespace Sys2Proof.Machine

/-! ## Decoding a stream -/

/-- What decoding a stream comes to (R72). -/
inductive DecodeResult where
  /-- END reached: the output, the address of the END, and the mode there. -/
  | ended (out : List Byte) (cur : Nat) (mode : Mode)
  /-- The first address that could not be read. -/
  | truncated (a : Nat)
deriving DecidableEq, Repr

/-- `go(a, mode, out)` of R72, over the bytes of IMEM from `a` up to the limit. -/
def decodeRun (mode : Mode) (a : Nat) (out : List Byte) : List Byte → DecodeResult
  | [] => .truncated a
  | t :: rest =>
    if t = Config.endToken then .ended out a mode
    else if t = Config.toggleToken then
      match rest with
      | [] => .truncated (a + 1)
      | v :: rest =>
        match mode with
        | .repeatMode => decodeRun .literalMode (a + 2) (out ++ [v]) rest
        | .literalMode =>
          match rest with
          | [] => .truncated (a + 2)
          | c :: rest => decodeRun .repeatMode (a + 3) (out ++ List.replicate (c.toNat + 1) v) rest
    else
      match mode with
      | .literalMode => decodeRun .literalMode (a + 1) (out ++ [t]) rest
      | .repeatMode =>
        match rest with
        | [] => .truncated (a + 1)
        | c :: rest => decodeRun .repeatMode (a + 2) (out ++ List.replicate (c.toNat + 1) t) rest

/-- A well-formed stream (R56): END stands at a token position before the bytes run out, and no TOG is directly
followed by a token value. -/
def wellFormedStream (mode : Mode) : List Byte → Bool
  | [] => false
  | t :: rest =>
    if t = Config.endToken then true
    else if t = Config.toggleToken then
      match rest with
      | [] => false
      | v :: rest =>
        if reserved v then false
        else
          match mode with
          | .repeatMode => wellFormedStream .literalMode rest
          | .literalMode =>
            match rest with
            | [] => false
            | _ :: rest => wellFormedStream .repeatMode rest
    else
      match mode with
      | .literalMode => wellFormedStream .literalMode rest
      | .repeatMode =>
        match rest with
        | [] => false
        | _ :: rest => wellFormedStream .repeatMode rest

/-! ## Encoding an input -/

/-- An input ENC accepts: no value is a token (R86). -/
def cleanInput (x : List Byte) : Bool := x.all fun v => !reserved v

/-- The maximal runs of equal values, in order (R80). -/
def maximalRuns : List Byte → List (Byte × Nat)
  | [] => []
  | v :: x =>
    match maximalRuns x with
    | [] => [(v, 1)]
    | (w, n) :: runs => if v = w then (w, n + 1) :: runs else (v, 1) :: (w, n) :: runs

/-- A segment of an input (R80). -/
inductive Segment where
  /-- A repeated run: `n` copies of `v`, `n ≥ 2`. -/
  | run (v : Byte) (n : Nat)
  /-- A non-repeated stretch. -/
  | stretch (ws : List Byte)
deriving DecidableEq, Repr

/-- A maximal run put before the segments of what follows it: a single joins the stretch after it (R80). -/
def addRun (r : Byte × Nat) (later : List Segment) : List Segment :=
  if 2 ≤ r.2 then .run r.1 r.2 :: later
  else
    match later with
    | .stretch ws :: later => .stretch (r.1 :: ws) :: later
    | [] => [.stretch [r.1]]
    | .run v n :: later => .stretch [r.1] :: .run v n :: later

/-- `segments(x)` (R80, R87). -/
def segments (x : List Byte) : List Segment := (maximalRuns x).foldr addRun []

/-- `seg(segments, mode)` of R87. -/
def encodeSegments (threshold : Threshold) : Mode → List Segment → List Byte
  | _, [] => [Config.endToken]
  | .repeatMode, .run v n :: later => chunks v n ++ encodeSegments threshold .repeatMode later
  | .literalMode, .run v n :: later =>
    Config.toggleToken :: chunks v n ++ encodeSegments threshold .repeatMode later
  | .repeatMode, .stretch ws :: later =>
    if threshold.toNat ≤ ws.length then
      Config.toggleToken :: ws ++ encodeSegments threshold .literalMode later
    else ws.take 1 ++ [0] ++ encodeSegments threshold .repeatMode later
  | .literalMode, .stretch ws :: later => ws ++ encodeSegments threshold .literalMode later

/-- `encode_T(x)` (R87). -/
def encodeInput (threshold : Threshold) (x : List Byte) : List Byte :=
  encodeSegments threshold .repeatMode (segments x)

/-! ## Summaries -/

/-- An ordered list of (phase, run length) pairs (R58). -/
abbrev Summary := List (Phase × Nat)

/-- A Summary that can be packed: not empty, every run length 1 to 31 (R58). -/
abbrev Summary.packable (S : Summary) : Prop := S ≠ [] ∧ ∀ x ∈ S, 1 ≤ x.2 ∧ x.2 ≤ Config.runCap

/-- `pack(S)`: EOS on the last pair only (R58). -/
def pack : Summary → List Byte
  | [] => []
  | [x] => [entryByte x.1 true (BitVec.ofNat _ x.2)]
  | x :: y :: S => entryByte x.1 false (BitVec.ofNat _ x.2) :: pack (y :: S)

/-- `expand(S)` (R61). -/
def expand : Summary → List Phase
  | [] => []
  | x :: S => List.replicate x.2 x.1 ++ expand S

/-- `total(S)` (R61). -/
def totalFrames : Summary → Nat
  | [] => 0
  | x :: S => x.2 + totalFrames S

/-! ## The host's moves of a run -/

/-- An instruction's operation as a host move. -/
def moveOf (i : Instr) : HostMove :=
  match encode i with
  | .operation p => .operation p
  | .stream _ => .read .cur
  | .entry _ => .read .inner

/-- `n` steps of a playback, each FRAME then EVOLVE (R101). -/
def playSteps : Nat → List HostMove
  | 0 => []
  | n + 1 => moveOf .frame :: moveOf .evolve :: playSteps n

end Sys2Proof.Machine
end

