-- ==== Sys2Proof/Machine/Image.lean ====
section
/-! DEFINITION. The image formats the host loads the tables from: one CompactLut record (R41), the output file that
carries the records (R42), and the loading of a record as host moves (R128; log entry 17). No operation reads them. -/

namespace Sys2Proof.Machine

/-- One CompactLut record (R41). -/
structure LutRecord where
  /-- The temperature's lower bound, signed 32-bit. -/
  lower : BitVec 32
  /-- The temperature's upper bound, signed 32-bit. -/
  upper : BitVec 32
  /-- MOFF. -/
  offsets : List Byte
  /-- LUT in flat order. -/
  table : List Byte
deriving DecidableEq, Repr

/-- A record for `n` modes: as many offsets, and 16384 table bytes (R41). -/
abbrev LutRecord.wf (n : Nat) (r : LutRecord) : Prop :=
  r.offsets.length = n ∧ r.table.length = Config.lutBytes

/-- A 4-byte field, least significant byte first (R42, R44, D22). -/
def littleEndian (v : BitVec 32) : List Byte :=
  [v.extractLsb' 0 8, v.extractLsb' 8 8, v.extractLsb' 16 8, v.extractLsb' 24 8]

/-- The value of a 4-byte little-endian field. -/
def fromLittleEndian (b0 b1 b2 b3 : Byte) : BitVec 32 := (b3 ++ b2 ++ b1 ++ b0 : BitVec (8 + 8 + 8 + 8))

/-- A record's bytes: the bounds, MOFF, LUT, with no padding (R41). -/
def recordBytes (r : LutRecord) : List Byte :=
  littleEndian r.lower ++ littleEndian r.upper ++ r.offsets ++ r.table

/-- The constant size of a record for `n` modes (R41). -/
def recordSize (n : Nat) : Nat := 8 + n + Config.lutBytes

/-- A record read from exactly its bytes. -/
def readRecord (n : Nat) (bytes : List Byte) : Option LutRecord :=
  if bytes.length = recordSize n then
    match bytes with
    | l0 :: l1 :: l2 :: l3 :: u0 :: u1 :: u2 :: u3 :: rest =>
      some { lower := fromLittleEndian l0 l1 l2 l3, upper := fromLittleEndian u0 u1 u2 u3
             offsets := rest.take n, table := rest.drop n }
    | _ => none
  else none

/-- The output file: MAGIC, the record count, the records (R42). -/
def fileBytes (records : List LutRecord) : List Byte :=
  Config.magic.toList ++ littleEndian (BitVec.ofNat 32 records.length) ++ (records.map recordBytes).flatten

/-- The host's stores of consecutive bytes of a memory. -/
def storeMoves (space : Space) : Nat → List Byte → List HostMove
  | _, [] => []
  | a, b :: bs => .write space a b :: storeMoves space (a + 1) bs

/-- The host loads MOFF and LUT from a record (R41, R126). The two bounds are read by no unit. -/
def loadRecord (r : LutRecord) : List HostMove := storeMoves .moff 0 r.offsets ++ storeMoves .lut 0 r.table

end Sys2Proof.Machine
end

