-- ==== Sys2Proof/Safety.lean ====
section
/-! DEFINITION. The terms the statements use: runs of the machine, the invariant of every reachable state, the
conformant row and the table contract (R102, R127), and which unit an instruction belongs to (R3). -/

namespace Sys2Proof.Machine

/-- `n` steps from a state, stopping at the first stop. -/
abbrev run (n : Nat) (s : State) : Host.Outcome State Fault Refusal := Host.Core.run Sys2Proof.core n s

/-- Every cell of a memory lies below a size. -/
def Memory.within (size : Nat) (m : Memory) : Bool := m.all fun x => x.1 < size

/-- A memory in canonical form with every address inside its space (R35). -/
abbrev Memory.good (size : Nat) (m : Memory) : Prop := Memory.wf m = true ∧ Memory.within size m = true

/-- Unit C's fault record agrees with CSTATE (R14, R15, R108 to R110): nothing recorded outside C_FAULT, and in it
one of the two exceptions unit C raises with its kind code. -/
abbrev UnitC.recordAgrees (c : UnitC) : Prop :=
  (c.cstate ≠ .fault → c.ccause = 0 ∧ c.ckind = 0 ∧ c.cinfo = 0) ∧
    (c.cstate = .fault → (c.ccause = 3 ∧ c.ckind = 0) ∨ (c.ccause = 4 ∧ c.ckind = 3))

/-- Unit P's fault record agrees with PSTATE (R22, R108 to R110). -/
abbrev UnitP.recordAgrees (p : UnitP) : Prop :=
  (p.pstate = .ok → p.pcause = 0 ∧ p.pkind = 0 ∧ p.pinfo = 0) ∧
    (p.pstate = .fault → p.pcause = 4 ∧ (p.pkind = 1 ∨ p.pkind = 2))

/-- CUR and CINFO stay in `0 .. 2^AW` (R15, R17), and while an ENC runs CUR lies between `src` and BOUND, which is
readable memory's end at most (R82). -/
abbrev UnitC.addressesFit (c : UnitC) : Prop :=
  c.cur ≤ Config.addrSpace ∧ c.cinfo ≤ Config.addrSpace ∧
    ∀ src, c.cstate = .busy → c.encSrc = some src →
      src ≤ c.cur ∧ c.cur ≤ c.bound ∧ c.bound ≤ Config.addrSpace

/-- The invariant of every reachable state: parameters in range, memories canonical and inside their spaces,
OUTER.IDX below 64 (R18), unit C's addresses in range, both fault records in agreement with their unit's state. -/
abbrev State.inv (s : State) : Prop :=
  s.cfg.wf ∧
    Memory.good s.cfg.imemSize s.mem.imem ∧ Memory.good Config.lutBytes s.mem.lut ∧
    Memory.good s.cfg.numModes s.mem.moff ∧
    (idxOf s.p.outer).toNat < Config.slots ∧
    s.c.addressesFit ∧ s.c.recordAgrees ∧ s.p.recordAgrees

/-- A conformant row for a mode, an offset and a Summary (R102). -/
abbrev conformantRow (s : State) (source destination : Level) (mode : Byte) (o : Byte) (S : Summary) : Prop :=
  mode.toNat < s.cfg.numModes ∧ Memory.read s.mem.moff mode.toNat = some o ∧ 1 ≤ o.toNat ∧ S.packable ∧
    o.toNat + S.length ≤ Config.slots ∧
    Memory.readRange s.mem.lut (slotIndex (rowOf source destination) o.toNat) S.length = some (pack S)

/-- Where the modes' slots start (R40, R127 (a), (b)): the non-idle modes one after another from slot `o` on, each as
long as its extent, the idle modes at the final offset; every offset 1 to 63. -/
def offsetsLaidOut (moff : Memory) (o : Nat) (idle : List Byte) : List (Byte × Nat) → Prop
  | [] => ∀ m ∈ idle, Memory.read moff m.toNat = some (BitVec.ofNat _ o) ∧ 1 ≤ o ∧ o < Config.slots
  | x :: later =>
    (Memory.read moff x.1.toNat = some (BitVec.ofNat _ o) ∧ 1 ≤ o ∧ o < Config.slots) ∧
      offsetsLaidOut moff (o + x.2) idle later

/-- What a table is built from: the Summary of every transition of gray levels under every mode (R4, R58), and for
each row which of the four transitions that share it (C5, D16) the row's bytes were packed from (log entry 19). -/
structure TableSource where
  /-- The Summary of a transition `source`, `destination` under a mode. -/
  summary : Level → Level → Byte → Summary
  /-- The transition a row holds. -/
  transition : RowPair → Level × Level

/-- The Summary a row holds for a mode. -/
def TableSource.held (T : TableSource) (row : RowPair) (m : Byte) : Summary :=
  T.summary (T.transition row).1 (T.transition row).2 m

/-- The table contract (R127; R40's builder keeps more, `BuiltTable`) for the modes that will be scheduled: (a), (b)
the offsets, each non-idle mode's extent its longest Summary over all transitions of the `LEVELS` gray levels; (c) the
Summaries packed at their mode's offset, inside the row; (d) every other slot 0x00; (e) no entry with RUN = 0 but
0x00. -/
structure TableContract (s : State) (first : Nat) (nonIdle : List (Byte × Nat)) (idle : List Byte)
    (T : TableSource) : Prop where
  /-- Every mode is a recognised one. -/
  recognised : ∀ m ∈ nonIdle.map Prod.fst ++ idle, m.toNat < s.cfg.numModes
  /-- Every row holds one of the transitions whose levels select it (R38, R63). -/
  selected : ∀ row, rowOf (T.transition row).1 (T.transition row).2 = row
  /-- (a) and (b). -/
  offsets : offsetsLaidOut s.mem.moff first idle nonIdle
  /-- The extents of (b): the longest Summary over all transitions, whichever of them the rows hold. -/
  extents : ∀ x ∈ nonIdle, (∀ source destination, (T.summary source destination x.1).length ≤ x.2) ∧
    ∃ source destination, (T.summary source destination x.1).length = x.2
  /-- (c). -/
  packed : ∀ m ∈ nonIdle.map Prod.fst ++ idle, ∀ row o, Memory.read s.mem.moff m.toNat = some o →
    o.toNat + (T.held row m).length ≤ Config.slots ∧
      (∀ x ∈ T.held row m, 1 ≤ x.2 ∧ x.2 ≤ Config.runCap) ∧
      Memory.readRange s.mem.lut (slotIndex row o.toNat) (T.held row m).length = some (pack (T.held row m))
  /-- (d). -/
  filled : ∀ row k, k < Config.slots →
    (∀ m ∈ nonIdle.map Prod.fst ++ idle, ∀ o, Memory.read s.mem.moff m.toNat = some o →
      k < o.toNat ∨ o.toNat + (T.held row m).length ≤ k) →
    Memory.read s.mem.lut (slotIndex row k) = some 0
  /-- (e). -/
  noReserved : ∀ row k b, k < Config.slots → Memory.read s.mem.lut (slotIndex row k) = some b →
    entryRun b = 0 → b = 0

/-- A table as the host's builder makes it (R40): the contract with the first offset 1, and every Summary of every
transition, held by a row or not, no longer than `64 - MOFF[m]`, for the idle modes too. -/
structure BuiltTable (s : State) (nonIdle : List (Byte × Nat)) (idle : List Byte) (T : TableSource) : Prop
    extends TableContract s 1 nonIdle idle T where
  /-- `64 - MOFF[m]` bounds the Summary of every transition and mode. -/
  fits : ∀ m ∈ nonIdle.map Prod.fst ++ idle, ∀ source destination o, Memory.read s.mem.moff m.toNat = some o →
    o.toNat + (T.summary source destination m).length ≤ Config.slots

/-- The unit an instruction acts on (R3, R62); a reserved code acts on neither. -/
def unitOf : Instr → Option HwUnit
  | .endTok => some .codec
  | .tog _ _ => some .codec
  | .rep _ _ => some .codec
  | .lit _ => some .codec
  | .nil => some .player
  | .pair _ _ => some .player
  | .pairLast _ _ => some .player
  | .reservedEntry _ _ => some .player
  | .dec _ _ => some .codec
  | .enc _ _ => some .codec
  | .schedule _ _ _ => some .player
  | .evolve => some .player
  | .frame => some .player
  | .reservedOp _ => none

/-- Unit P with OUTER and INNER given and a phase in the slot the next FRAME emits, the other slot as it was (R98):
the form in which the statements give a playback's next state. -/
def playing (outer : OuterWord) (inner : Byte) (ph : Phase) (s : State) : State :=
  { s with p := { s.p with
      outer, inner
      ph0 := if s.p.sel = true then s.p.ph0 else ph
      ph1 := if s.p.sel = true then ph else s.p.ph1 } }

/-- Unit C right after a DEC or an ENC is accepted (R65, R81), as the statements give it. -/
def opened (cur bound : Nat) (encSrc : Option Nat) (s : State) : State :=
  { s with c := { s.c with mode := .repeatMode, cur, bound, cstate := .busy, out := [], encSrc } }

/-- Unit C accepts an operation (R14). -/
abbrev accepting (s : State) : Prop := s.c.cstate = .idle ∨ s.c.cstate = .done

/-- Unit P is playing: not in fault, not idle (R18, R22). -/
abbrev active (s : State) : Prop := s.p.pstate = .ok ∧ s.p.outer ≠ 0

/-- Every address from `a` below `e` is inside IMEM and holds a value ENC accepts (R81, R86). -/
abbrev cleanBetween (s : State) (a e : Nat) : Prop :=
  ∀ j, a ≤ j → j < e → j < s.cfg.imemSize ∧ ∃ v, Memory.read s.mem.imem j = some v ∧ v ≠ 0xFF ∧ v ≠ 0xFC

/-- The phase slot that is not active (R20). -/
def inactivePhase (p : UnitP) : Phase := if p.sel then p.ph0 else p.ph1

end Sys2Proof.Machine
end

