-- ==== Sys2Proof/Certificates/Slice0/Obligations.lean ====
section
/-! DEFINITION. The statements for the provers, one definition each. OBLIGATIONS.json says which rule each
formalises. -/

open Sys2Proof Sys2Proof.Machine

/-! ## Encodings -/

/-- R50 to R62: what the encoder writes for a well-formed instruction, the decoder reads back, under a mode the token
is read in and whatever bytes follow it. -/
def Obligations.DecodeOfEncodeIsTheInstruction : Prop :=
  ∀ (i : Instr) (m : Mode), i.wellFormed = true → i.readUnder m = true →
    decode m (encode i) = .ok i ∧
      (tokenBytes i ≠ [] → ∀ rest, decodeToken m (tokenBytes i ++ rest) = .ok (i, rest))

/-- R50, R53 to R55: what the decoder reads as a token is a well-formed token of that mode, and its bytes are those
the encoder writes for it, so no bit of a stream is dropped. -/
def Obligations.DecodedTokenReencodesToItsBytes : Prop :=
  ∀ (m : Mode) (bytes : List Byte) (i : Instr) (rest : List Byte), decodeToken m bytes = .ok (i, rest) →
    i.wellFormed = true ∧ i.readUnder m = true ∧ bytes = tokenBytes i ++ rest

/-- R57, R59, R60: every entry byte is a well-formed entry, and the encoder writes that byte for it. -/
def Obligations.EntryByteReencodesToItself : Prop :=
  ∀ b : Byte, (decodeEntry b).wellFormed = true ∧ encode (decodeEntry b) = .entry b

/-- R62: the eight operation codes, with their operands; the three reserved ones change no state. -/
def Obligations.OperationCodesAreTheTables : Prop :=
  ∀ p : OpPort,
    (p.op = 0 → decodeOp p = .dec p.addr p.extent) ∧ (p.op = 1 → decodeOp p = .enc p.addr p.extent) ∧
    (p.op = 4 → decodeOp p = .schedule p.source p.destination p.mode) ∧
    (p.op = 5 → decodeOp p = .evolve) ∧ (p.op = 6 → decodeOp p = .frame) ∧
    (p.op = 2 ∨ p.op = 3 ∨ p.op = 7 →
      decodeOp p = .reservedOp p.op ∧ ∀ s, exec (decodeOp p) s = .next s) ∧
    (decodeOp p).wellFormed = true

/-- Words written out from R51 to R54, R57, R59, R60 and R64, and what they stand for. -/
def Obligations.WrittenWordsDecode : Prop :=
  decodeToken .repeatMode [0xAB, 0x02, 0xFF] = .ok (.rep 0xAB 0x02, [0xFF]) ∧
  decodeToken .repeatMode [0xFC, 0x05, 0xFF] = .ok (.tog 0x05 none, [0xFF]) ∧
  decodeToken .literalMode [0xFC, 0x50, 0x01, 0xFF] = .ok (.tog 0x50 (some 0x01), [0xFF]) ∧
  decodeToken .literalMode [0x33, 0x05] = .ok (.lit 0x33, [0x05]) ∧
  decodeToken .literalMode [0xFF] = .ok (.endTok, []) ∧
  decodeEntry 0x43 = .pair 1 3 ∧ decodeEntry 0xA1 = .pairLast 2 1 ∧ decodeEntry 0x00 = .nil ∧
  decodeEntry 0xE0 = .reservedEntry 3 true

/-! ## Steps -/

/-- R66: with a DEC running, when the bytes at CUR are readable and are a well-formed token of the current mode, the
step is that token's meaning. Nothing is added: the token itself moves CUR. -/
def Obligations.StepRunsTheTokenAtTheCursor : Prop :=
  ∀ (s : State) (i : Instr), s.c.cstate = .busy → s.c.encSrc = none →
    i.wellFormed = true → i.readUnder s.c.mode = true → tokenBytes i ≠ [] →
    (∀ k, k < (tokenBytes i).length →
      s.c.cur + k < limit s ∧ Memory.read s.mem.imem (s.c.cur + k) = (tokenBytes i)[k]?) →
    step s = exec i s

/-- R48, R62, R131: with no codec operation running, the step takes the host's next operation off its list and is the
meaning of the instruction its code and operands stand for. -/
def Obligations.StepRunsTheHostsOperation : Prop :=
  ∀ (s : State) (p : OpPort) (later : List HostMove), s.c.cstate ≠ .busy → s.host = .operation p :: later →
    step s = exec (decodeOp p) { s with host := later }

/-- R26, R124, R128: with no codec operation running, a machine without a pending move waits unchanged (the form of
waiting is the model's, log entry 2), and a host read changes nothing. -/
def Obligations.WaitingAndReadingChangeNothing : Prop :=
  ∀ s : State, s.c.cstate ≠ .busy →
    (s.host = [] → step s = .next s) ∧
    (∀ r later, s.host = .read r :: later → step s = .next { s with host := later })

/-- R27: the value of every register and stream the spec names, after reset; no byte of any memory has a value. -/
def Obligations.ResetValuesAreTheTables : Prop :=
  State.reset.c = { mode := .repeatMode, cur := 0, bound := 0, cstate := .idle, ccause := 0, ckind := 0,
                    cinfo := 0, out := [], encSrc := State.reset.c.encSrc } ∧
  State.reset.p = { outer := 0, inner := 0, ph0 := 0, ph1 := 0, sel := false, row := 0, pstate := .ok,
                    pcause := 0, pkind := 0, pinfo := 0, hist := [] } ∧
  ∀ (space : Space) (a : Nat), Memory.read (State.reset.mem.get space) a = none

/-- R123, R115: the RESET move gives every register and both streams the values they have right after reset, whatever
they were, a fault included, and leaves the memories. (That RESET is taken between operations is the model's choice,
log entry 12.) -/
def Obligations.ResetSetsEveryRegister : Prop :=
  ∀ (s : State) (later : List HostMove), s.c.cstate ≠ .busy → s.host = .reset :: later →
    step s = .next { cfg := s.cfg, mem := s.mem, host := later, c := State.reset.c, p := State.reset.p }

/-- R26, R35, R128: a host store puts its byte where it says, changes no other byte of any memory, keeps the
canonical form and touches no register; outside the memory's size the model stops (log entry 13). -/
def Obligations.HostStoreIsReadBack : Prop :=
  ∀ (s : State) (space : Space) (a : Nat) (b : Byte) (later : List HostMove), s.c.cstate ≠ .busy →
    s.host = .write space a b :: later →
    (a < spaceSize s.cfg space → ∃ t, step s = .next t ∧
      Memory.read (t.mem.get space) a = some b ∧
      (∀ a', a' ≠ a → Memory.read (t.mem.get space) a' = Memory.read (s.mem.get space) a') ∧
      (∀ other, other ≠ space → t.mem.get other = s.mem.get other) ∧
      (Memory.wf (s.mem.get space) = true → Memory.wf (t.mem.get space) = true) ∧
      t.c = s.c ∧ t.p = s.p ∧ t.cfg = s.cfg ∧ t.host = later) ∧
    (spaceSize s.cfg space ≤ a → step s = .fault (.noSuchAddress space a))

/-- R36, R66, R68, R70, R109, R116: a decoder step that needs a byte at or beyond the limit raises
TruncatedInputError at the lowest such address: the token position; the byte after a TOG, or after a value in REPEAT
mode; the count byte after a TOG into REPEAT. -/
def Obligations.DecodeStepRaisesAtTheLimit : Prop :=
  ∀ s : State, s.c.cstate = .busy → s.c.encSrc = none →
    (limit s ≤ s.c.cur → step s = .next (takeException .codec (.truncated s.c.cur) s)) ∧
    (∀ t, s.c.cur < limit s → Memory.read s.mem.imem s.c.cur = some t → t ≠ 0xFF →
      t = 0xFC ∨ s.c.mode = .repeatMode → limit s ≤ s.c.cur + 1 →
      step s = .next (takeException .codec (.truncated (s.c.cur + 1)) s)) ∧
    (∀ v, s.c.cur + 1 < limit s → Memory.read s.mem.imem s.c.cur = some 0xFC →
      Memory.read s.mem.imem (s.c.cur + 1) = some v → s.c.mode = .literalMode → limit s ≤ s.c.cur + 2 →
      step s = .next (takeException .codec (.truncated (s.c.cur + 2)) s))

/-! ## Exceptions -/

/-- R108 to R110, R112, R113: what taking each exception writes, and that nothing else changes. -/
def Obligations.ExceptionWritesOnlyTheFaultRecord : Prop :=
  ∀ (s : State) (a : Nat),
    takeException .codec (.truncated a) s =
      { s with c := { s.c with cstate := .fault, ccause := 3, ckind := 0, cinfo := a } } ∧
    takeException .codec (.reservedValue a) s =
      { s with c := { s.c with cstate := .fault, ccause := 4, ckind := 3, cinfo := a } } ∧
    takeException .player (.modeIndex a) s =
      { s with p := { s.p with pstate := .fault, pcause := 4, pkind := 1, pinfo := BitVec.ofNat 8 a } } ∧
    takeException .player (.lutIndex a) s =
      { s with p := { s.p with pstate := .fault, pcause := 4, pkind := 2, pinfo := BitVec.ofNat 8 a } }

/-- R114: in C_FAULT a DEC and an ENC change no state; in P_FAULT a SCHEDULE, an EVOLVE and a FRAME change none;
a fault in one unit leaves the other; and no step but a RESET clears or overwrites a fault record. -/
def Obligations.FaultedUnitStaysUntilReset : Prop :=
  ∀ s : State,
    (s.c.cstate = .fault → ∀ a b, exec (.dec a b) s = .next s ∧ exec (.enc a b) s = .next s) ∧
    (s.p.pstate = .fault → (∀ a b m, exec (.schedule a b m) s = .next s) ∧ exec .evolve s = .next s ∧
      exec .frame s = .next s) ∧
    (∀ e, (takeException .codec e s).p = s.p ∧ (takeException .player e s).c = s.c) ∧
    (∀ t, step s = .next t → (∀ later, s.host ≠ .reset :: later) →
      (s.c.cstate = .fault → t.c = s.c) ∧ (s.p.pstate = .fault → t.p = s.p))

/-! ## Tokens -/

/-- R67: END ends the run and changes nothing else. -/
def Obligations.EndTokenOnlyEndsTheRun : Prop :=
  ∀ s : State, exec .endTok s = .next { s with c := { s.c with cstate := .done } }

/-- R69: a LIT emits its value once and passes one byte. -/
def Obligations.LitEmitsItsValueOnce : Prop :=
  ∀ (s : State) (v : Byte),
    exec (.lit v) s = .next { s with c := { s.c with out := s.c.out ++ [v], cur := s.c.cur + 1 } }

/-- R53, R70: a REP whose count byte is readable emits `count + 1` copies, 1 to 256, and passes two bytes; otherwise
it raises at the count byte and emits nothing. -/
def Obligations.RepEmitsCountPlusOneCopies : Prop :=
  ∀ (s : State) (v c : Byte),
    (s.c.cur + 1 < limit s →
      exec (.rep v c) s =
        .next { s with c := { s.c with
          out := s.c.out ++ List.replicate (c.toNat + 1) v, cur := s.c.cur + 2 } }) ∧
    (limit s ≤ s.c.cur + 1 → exec (.rep v c) s = .next (takeException .codec (.truncated (s.c.cur + 1)) s)) ∧
    1 ≤ c.toNat + 1 ∧ c.toNat + 1 ≤ 256

/-- R68, R112, R116: a TOG met in REPEAT mode makes MODE LITERAL, emits its value once and passes two bytes; one met
in LITERAL mode makes MODE REPEAT, emits `count + 1` copies and passes three. When its value byte, or in LITERAL mode
its count byte, lies at or beyond the limit it raises at the first such byte and has no other effect, MODE included. -/
def Obligations.TogFlipsTheModeAndRunsItsValue : Prop :=
  ∀ (s : State) (v c : Byte),
    (s.c.mode = .repeatMode → s.c.cur + 1 < limit s →
      exec (.tog v none) s =
        .next { s with c := { s.c with
          mode := .literalMode, out := s.c.out ++ [v], cur := s.c.cur + 2 } }) ∧
    (s.c.mode = .literalMode → s.c.cur + 2 < limit s →
      exec (.tog v (some c)) s =
        .next { s with c := { s.c with
          mode := .repeatMode, out := s.c.out ++ List.replicate (c.toNat + 1) v, cur := s.c.cur + 3 } }) ∧
    (limit s ≤ s.c.cur + 1 →
      exec (.tog v none) s = .next (takeException .codec (.truncated (s.c.cur + 1)) s) ∧
      exec (.tog v (some c)) s = .next (takeException .codec (.truncated (s.c.cur + 1)) s)) ∧
    (s.c.mode = .literalMode → s.c.cur + 1 < limit s → limit s ≤ s.c.cur + 2 →
      exec (.tog v (some c)) s = .next (takeException .codec (.truncated (s.c.cur + 2)) s))

/-! ## The decoder's run -/

/-- R65: an accepted DEC opens its run. -/
def Obligations.DecOpensItsRun : Prop :=
  ∀ (s : State) (off : Addr) (bound : Extent), accepting s →
    exec (.dec off bound) s = .next (opened off.toNat bound.toNat none s)

/-- R14, R114: a DEC or an ENC met in C_BUSY or in C_FAULT changes nothing. -/
def Obligations.CodecIgnoresOperationsUnlessIdleOrDone : Prop :=
  ∀ (s : State) (a : Addr) (b : Extent), s.c.cstate = .busy ∨ s.c.cstate = .fault →
    exec (.dec a b) s = .next s ∧ exec (.enc a b) s = .next s

/-- A decoder step that neither ends nor faults the run moves CUR forward by 1, 2 or 3 and leaves it at the
limit at most (the inference of R71, which the spec marks as its own: "Every step that neither ends nor faults the
run increases CUR by at least 1"). -/
def Obligations.DecodeStepMovesTheCursorForward : Prop :=
  ∀ s t : State, s.c.cstate = .busy → s.c.encSrc = none → step s = .next t → t.c.cstate = .busy →
    s.c.cur < t.c.cur ∧ t.c.cur ≤ s.c.cur + 3 ∧ t.c.cur ≤ limit s

/-- A decoder step depends on unit C's registers and on the bytes of IMEM from CUR up to the limit, and on nothing
else of the machine (R74, an inference the spec marks as its own). -/
def Obligations.DecodeStepReadsOnlyItsRange : Prop :=
  ∀ s s' t : State, s.c.cstate = .busy → s.c.encSrc = none → s'.c = s.c → limit s' = limit s →
    (∀ a, s.c.cur ≤ a → a < limit s → Memory.read s'.mem.imem a = Memory.read s.mem.imem a) →
    step s = .next t → ∃ t', step s' = .next t' ∧ t'.c = t.c

/-- An accepted DEC over loaded bytes ends, within `max(limit - off, 0) + 1` decoder steps, exactly as the closed form
says, and leaves unit P and the memories alone (R71 and R72, inferences the spec marks as its own; that the run is
taken step by step is log entry 1). -/
def Obligations.DecRunFollowsItsClosedForm : Prop :=
  ∀ (s : State) (off : Addr) (bound : Extent) (bytes : List Byte) (later : List HostMove),
    accepting s → s.host = moveOf (.dec off bound) :: later →
    Memory.readRange s.mem.imem off.toNat (min bound.toNat s.cfg.imemSize - off.toNat) = some bytes →
    ∃ n t, n ≤ min bound.toNat s.cfg.imemSize - off.toNat + 1 ∧ run (n + 1) s = .next t ∧
      t.cfg = s.cfg ∧ t.p = s.p ∧ t.mem = s.mem ∧ t.host = later ∧
      match decodeRun .repeatMode off.toNat [] bytes with
      | .ended out cur mode =>
        t.c = { s.c with mode, cur, bound := bound.toNat, cstate := .done, out, encSrc := none }
      | .truncated a => t.c.cstate = .fault ∧ t.c.ccause = 3 ∧ t.c.ckind = 0 ∧ t.c.cinfo = a

/-! ## The encoder -/

/-- R81: an accepted ENC whose whole input is readable and free of the two token values opens its run. -/
def Obligations.EncOpensItsRunOnACleanInput : Prop :=
  ∀ (s : State) (src : Addr) (length : Extent), accepting s →
    cleanBetween s src.toNat (src.toNat + length.toNat) →
    exec (.enc src length) s = .next (opened src.toNat (src.toNat + length.toNat) (some src.toNat) s)

/-- R81, R86, R112, R116: the first input address that is beyond the buffer or holds a token value is reported, the
writes that open the run standing and nothing emitted. -/
def Obligations.EncRaisesAtTheLowestOffender : Prop :=
  ∀ (s : State) (src : Addr) (length : Extent) (a : Nat), accepting s →
    src.toNat ≤ a → a < src.toNat + length.toNat → cleanBetween s src.toNat a →
    (s.cfg.imemSize ≤ a →
      exec (.enc src length) s =
        .next (takeException .codec (.truncated a)
          (opened src.toNat (src.toNat + length.toNat) (some src.toNat) s))) ∧
    (a < s.cfg.imemSize →
      Memory.read s.mem.imem a = some 0xFF ∨ Memory.read s.mem.imem a = some 0xFC →
      exec (.enc src length) s =
        .next (takeException .codec (.reservedValue a)
          (opened src.toNat (src.toNat + length.toNat) (some src.toNat) s)))

/-- R85: at the end of the input the encoder emits END in whatever mode and the run is done. -/
def Obligations.EncoderEndsWithTheEndToken : Prop :=
  ∀ (s : State) (src : Nat), s.c.cstate = .busy → s.c.encSrc = some src → s.c.cur = s.c.bound →
    step s = .next { s with c := { s.c with out := s.c.out ++ [0xFF], cstate := .done } }

/-- R82, R83: at the start of a maximal run of `n ≥ 2` equal values the encoder goes back to REPEAT if need be, emits
the run's chunks and passes the run. -/
def Obligations.EncoderEmitsARunAsChunks : Prop :=
  ∀ (s : State) (src : Nat) (v : Byte) (n : Nat), s.c.cstate = .busy → s.c.encSrc = some src → 2 ≤ n →
    s.c.cur + n ≤ s.c.bound → (∀ k, k < n → Memory.read s.mem.imem (s.c.cur + k) = some v) →
    s.c.cur + n = s.c.bound ∨ Memory.read s.mem.imem (s.c.cur + n) ≠ some v →
    step s = .next { s with c := { s.c with
      mode := .repeatMode, cur := s.c.cur + n
      out := s.c.out ++ ((if s.c.mode = .literalMode then [0xFC] else []) ++ chunks v n) } }

/-- R82, R84: at the start of a stretch `ws` of singles, met in REPEAT mode: a stretch as long as the threshold is
toggled into LITERAL and emitted value by value; a shorter one is a REP with count 0. -/
def Obligations.EncoderEmitsAStretch : Prop :=
  ∀ (s : State) (src : Nat) (ws : List Byte), s.c.cstate = .busy → s.c.encSrc = some src →
    s.c.mode = .repeatMode → ws ≠ [] → s.c.cur + ws.length ≤ s.c.bound →
    Memory.readRange s.mem.imem s.c.cur ws.length = some ws →
    (∀ j, s.c.cur ≤ j → j < s.c.cur + ws.length → single s.mem.imem src s.c.bound j = true) →
    s.c.cur + ws.length = s.c.bound ∨ single s.mem.imem src s.c.bound (s.c.cur + ws.length) = false →
    (s.cfg.threshold.toNat ≤ ws.length →
      step s = .next { s with c := { s.c with
        mode := .literalMode, cur := s.c.cur + ws.length, out := s.c.out ++ (0xFC :: ws) } }) ∧
    (ws.length < s.cfg.threshold.toNat →
      step s = .next { s with c := { s.c with
        cur := s.c.cur + ws.length, out := s.c.out ++ (ws.take 1 ++ [0x00]) } })

/-- R83, R87: the chunks of a run are full chunks while more than 256 copies remain, then one chunk. -/
def Obligations.ChunksFollowTheirRecurrence : Prop :=
  ∀ (v : Byte) (n : Nat),
    (256 < n → chunks v n = [v, 0xFF] ++ chunks v (n - 256)) ∧
    (1 ≤ n → n ≤ 256 → chunks v n = [v, BitVec.ofNat 8 (n - 1)])

/-- An accepted ENC of a loaded clean input ends in C_DONE within `length + 1` encoder steps, with the closed form's
bytes in OUT and CUR and BOUND at the input's end, and leaves unit P and the memories alone (R87 and R91, inferences
the spec marks as its own; that the run is taken step by step is log entry 1). -/
def Obligations.EncRunFollowsItsClosedForm : Prop :=
  ∀ (s : State) (src : Addr) (length : Extent) (x : List Byte) (later : List HostMove),
    accepting s → s.host = moveOf (.enc src length) :: later →
    src.toNat + length.toNat ≤ s.cfg.imemSize →
    Memory.readRange s.mem.imem src.toNat length.toNat = some x → cleanInput x = true →
    ∃ n t, n ≤ length.toNat + 1 ∧ run (n + 1) s = .next t ∧
      t.cfg = s.cfg ∧ t.p = s.p ∧ t.mem = s.mem ∧ t.host = later ∧
      t.c.cstate = .done ∧ t.c.out = encodeInput s.cfg.threshold x ∧
      t.c.cur = src.toNat + length.toNat ∧ t.c.bound = src.toNat + length.toNat

/-- The codec round trip (R88): an encoded clean input, placed anywhere in IMEM and decoded with a bound beyond it,
decodes to the input, for both thresholds; and CUR is left at the stream's last byte, its one END (R89 (d), an
inference the spec marks as its own, with R17 and R67). The run is taken step by step (log entry 1). -/
def Obligations.DecodeOfAnEncodedInputIsTheInput : Prop :=
  ∀ (s : State) (threshold : Threshold) (x : List Byte) (off : Addr) (bound : Extent)
    (later : List HostMove),
    accepting s → s.host = moveOf (.dec off bound) :: later → cleanInput x = true →
    off.toNat + (encodeInput threshold x).length ≤ bound.toNat →
    off.toNat + (encodeInput threshold x).length ≤ s.cfg.imemSize →
    Memory.readRange s.mem.imem off.toNat (encodeInput threshold x).length = some (encodeInput threshold x) →
    ∃ n t, run n s = .next t ∧ t.c.cstate = .done ∧ t.c.out = x ∧ t.host = later ∧
      t.c.cur + 1 = off.toNat + (encodeInput threshold x).length

/-- The encoder's output is a well-formed stream of at most `2 * len(x) + 1` bytes (R89 (a), (c), an inference the
spec marks as its own). -/
def Obligations.EncodedInputIsAShortWellFormedStream : Prop :=
  ∀ (threshold : Threshold) (x : List Byte), cleanInput x = true →
    wellFormedStream .repeatMode (encodeInput threshold x) = true ∧
      (encodeInput threshold x).length ≤ 2 * x.length + 1

/-! ## SCHEDULE -/

/-- R63, R92: SCHEDULE. Met in fault or while not idle it changes nothing, whatever its operands. From idle, a mode
that is not recognised raises MODE_INDEX; a recognised one with an offset of 64 or more raises LUT_INDEX; else the
entry at the offset is loaded: the row is the two gray levels shifted right by one, the slot the mode's offset, and DB
is set iff the loaded byte's low 6 bits exceed 1. -/
def Obligations.ScheduleFollowsItsRule : Prop :=
  ∀ (s : State) (source destination : Level) (mode o b : Byte),
    (s.p.pstate = .fault ∨ s.p.outer ≠ 0 → exec (.schedule source destination mode) s = .next s) ∧
    (s.p.pstate = .ok → s.p.outer = 0 →
      (s.cfg.numModes ≤ mode.toNat →
        exec (.schedule source destination mode) s =
          .next (takeException .player (.modeIndex mode.toNat) s)) ∧
      (mode.toNat < s.cfg.numModes → Memory.read s.mem.moff mode.toNat = some o →
        (64 ≤ o.toNat →
          exec (.schedule source destination mode) s =
            .next (takeException .player (.lutIndex o.toNat) s)) ∧
        (o.toNat < 64 →
          Memory.read s.mem.lut ((source.toNat / 2 * 16 + destination.toNat / 2) * 64 + o.toNat) = some b →
          exec (.schedule source destination mode) s =
            .next (playing (if 1 < b.toNat % 64 then 0x80 ||| o else o) b (b.extractLsb' 6 2)
              { s with p := { s.p with
                  row := BitVec.ofNat 8 (source.toNat / 2 * 16 + destination.toNat / 2) } }))))

/-- R38, R63: bit 0 of each gray level is ignored. -/
def Obligations.ScheduleIgnoresOddLevels : Prop :=
  ∀ (s : State) (a a' b b' : Level) (mode : Byte), a.toNat / 2 = a'.toNat / 2 →
    b.toNat / 2 = b'.toNat / 2 → exec (.schedule a b mode) s = exec (.schedule a' b' mode) s

/-- A mode offset of 0 (R134, an inference the spec marks as its own). With a first REM of at most 1 unit P still
reads as idle; with a larger one the first EVOLVE falls idle in mid-entry. -/
def Obligations.OffsetZeroReadsAsIdle : Prop :=
  ∀ (s : State) (source destination : Level) (mode b : Byte), s.p.pstate = .ok → s.p.outer = 0 →
    mode.toNat < s.cfg.numModes → Memory.read s.mem.moff mode.toNat = some 0 →
    Memory.read s.mem.lut (slotIndex (rowOf source destination) 0) = some b →
    ∃ t, exec (.schedule source destination mode) s = .next t ∧ t.p.inner = b ∧
      (b.toNat % 64 ≤ 1 → t.p.outer = 0x00 ∧ exec .evolve t = .next t) ∧
      (1 < b.toNat % 64 → t.p.outer = 0x80 ∧
        ∃ u, exec .evolve t = .next u ∧ u.p.outer = 0x00 ∧ u.p.inner = b - 1 ∧
          exec .evolve u = .next u)

/-! ## EVOLVE and the entries -/

/-- R93 (case E1), R114: idle or in fault, EVOLVE changes nothing, and neither does any entry. -/
def Obligations.EvolveIdleOrFaultedChangesNothing : Prop :=
  ∀ (s : State) (p : Phase) (r : RunLength) (eos : Bool), s.p.pstate = .fault ∨ s.p.outer = 0 →
    exec .evolve s = .next s ∧ exec .nil s = .next s ∧ exec (.pair p r) s = .next s ∧
      exec (.pairLast p r) s = .next s ∧ exec (.reservedEntry p eos) s = .next s

/-- R94, R97 (cases E2 and E5): with a remainder above 1 EVOLVE counts INNER down by one, keeps the phase and IDX,
and leaves DB clear. -/
def Obligations.EvolveCountsTheRunDown : Prop :=
  ∀ s : State, active s → 1 < s.p.inner.toNat % 64 →
    exec .evolve s = .next (playing (s.p.outer &&& 0x7F) (s.p.inner - 1) (s.p.inner.extractLsb' 6 2) s)

/-- R39, R95, R110 (case E3): with a remainder of 1 EVOLVE loads the next slot of the latched row and sets DB; past
slot 63 it raises LUT_INDEX and changes nothing else. -/
def Obligations.EvolveLoadsTheNextEntry : Prop :=
  ∀ s : State, active s → s.p.inner.toNat % 64 = 1 →
    (∀ b, s.p.outer.toNat % 128 + 1 < 64 →
      Memory.read s.mem.lut (s.p.row.toNat * 64 + (s.p.outer.toNat % 128 + 1)) = some b →
      exec .evolve s =
        .next (playing (BitVec.ofNat 8 (128 + (s.p.outer.toNat % 128 + 1))) b (b.extractLsb' 6 2) s)) ∧
    (64 ≤ s.p.outer.toNat % 128 + 1 →
      exec .evolve s = .next (takeException .player (.lutIndex (s.p.outer.toNat % 128 + 1)) s))

/-- R96 (case E4): with a remainder of 0 EVOLVE returns to idle with phase 0. -/
def Obligations.EmptyRemainderReturnsToIdle : Prop :=
  ∀ s : State, active s → s.p.inner.toNat % 64 = 0 → exec .evolve s = .next (playing 0x00 0x00 0 s)

/-- R59, R96 (an entry's meaning as one EVOLVE is the model's choice, log entry 9): NIL returns unit P to idle with
phase 0. -/
def Obligations.NilReturnsToIdle : Prop :=
  ∀ s : State, active s → exec .nil s = .next (playing 0x00 0x00 0 s)

/-- An EVOLVE is the meaning of the entry that stands in INNER: what ties the entries' rows to EVOLVE (R93; the
model's choice, log entry 9). -/
def Obligations.EvolveRunsTheEntryInInner : Prop :=
  ∀ s : State, exec .evolve s = exec (decodeEntry s.p.inner) s

/-- R57, R93 (an entry's meaning as one EVOLVE is the model's choice, log entry 9): an entry P<p>x<r>, with the
remainder `r`: above 1 it counts down; at 1 it loads the next slot of the latched row, or raises LUT_INDEX past slot
63. -/
def Obligations.PairPlaysItsRun : Prop :=
  ∀ (s : State) (p : Phase) (r : RunLength), active s → r ≠ 0 →
    (r ≠ 1 → exec (.pair p r) s =
      .next (playing (s.p.outer &&& 0x7F) (BitVec.ofNat 8 (p.toNat * 64 + (r.toNat - 1))) p s)) ∧
    (r = 1 → ∀ b, s.p.outer.toNat % 128 + 1 < 64 →
      Memory.read s.mem.lut (s.p.row.toNat * 64 + (s.p.outer.toNat % 128 + 1)) = some b →
      exec (.pair p r) s =
        .next (playing (BitVec.ofNat 8 (128 + (s.p.outer.toNat % 128 + 1))) b (b.extractLsb' 6 2) s)) ∧
    (r = 1 → 64 ≤ s.p.outer.toNat % 128 + 1 →
      exec (.pair p r) s = .next (takeException .player (.lutIndex (s.p.outer.toNat % 128 + 1)) s))

/-- R57, R93 (an entry's meaning as one EVOLVE is the model's choice, log entry 9): a last pair P<p>x<r>! is counted
as a remainder of `32 + r`: the EOS bit weighs 32. -/
def Obligations.LastPairCountsItsMarkerAs32 : Prop :=
  ∀ (s : State) (p : Phase) (r : RunLength), active s → r ≠ 0 →
    exec (.pairLast p r) s =
      .next (playing (s.p.outer &&& 0x7F) (BitVec.ofNat 8 (p.toNat * 64 + (32 + r.toNat - 1))) p s)

/-- R60 (an entry's meaning as one EVOLVE is the model's choice, log entry 9): a reserved entry with EOS clear
returns unit P to idle; one with EOS set is a remainder of 32. -/
def Obligations.ReservedEntryFollowsTheOrdinaryRules : Prop :=
  ∀ (s : State) (p : Phase), active s →
    exec (.reservedEntry p false) s = .next (playing 0x00 0x00 0 s) ∧
    exec (.reservedEntry p true) s =
      .next (playing (s.p.outer &&& 0x7F) (BitVec.ofNat 8 (p.toNat * 64 + 31)) p s)

/-! ## FRAME and the reserved codes -/

/-- R99, R114: FRAME appends the active slot's phase and swaps the slots; in fault it changes nothing. -/
def Obligations.FrameEmitsTheActiveSlotAndSwaps : Prop :=
  ∀ s : State,
    (s.p.pstate = .ok →
      exec .frame s = .next { s with p := { s.p with
        hist := s.p.hist ++ [if s.p.sel = true then s.p.ph1 else s.p.ph0], sel := !s.p.sel } }) ∧
    (s.p.pstate = .fault → exec .frame s = .next s)

/-- R62: a reserved operation code changes nothing and raises nothing. -/
def Obligations.ReservedCodeChangesNothing : Prop :=
  ∀ (s : State) (code : BitVec 3), exec (.reservedOp code) s = .next s

/-! ## Playbacks -/

/-- R101 to R103: fidelity. From idle, SCHEDULE of a conformant row and `total(S)` steps append `expand(S)` to HIST
and raise nothing. -/
def Obligations.PlaybackReproducesTheExpandedSummary : Prop :=
  ∀ (s : State) (source destination : Level) (mode o : Byte) (S : Summary) (later : List HostMove),
    s.c.cstate ≠ .busy → s.p.pstate = .ok → s.p.outer = 0 → conformantRow s source destination mode o S →
    s.host = moveOf (.schedule source destination mode) :: (playSteps (totalFrames S) ++ later) →
    ∃ t, run (1 + 2 * totalFrames S) s = .next t ∧ t.p.hist = s.p.hist ++ expand S ∧ t.p.pstate = .ok ∧
      t.c = s.c ∧ t.mem = s.mem ∧ t.host = later

/-- The same row followed by an empty slot. After `total(S) + 33` steps unit P is idle; the last phase was held 32
frames more and one 0 was emitted (R104, an inference the spec marks as its own: the source validates no frame after
the first `total(S)`). -/
def Obligations.PlaybackHoldsTheLastPhaseAndStops : Prop :=
  ∀ (s : State) (source destination : Level) (mode o : Byte) (S : Summary) (last : Phase × Nat)
    (later : List HostMove),
    s.c.cstate ≠ .busy → s.p.pstate = .ok → s.p.outer = 0 → conformantRow s source destination mode o S →
    S.getLast? = some last → o.toNat + S.length < 64 →
    Memory.read s.mem.lut (slotIndex (rowOf source destination) (o.toNat + S.length)) = some 0 →
    s.host = moveOf (.schedule source destination mode) :: (playSteps (totalFrames S + 33) ++ later) →
    ∃ t, run (1 + 2 * (totalFrames S + 33)) s = .next t ∧
      t.p.hist = s.p.hist ++ expand S ++ List.replicate 32 last.1 ++ [0] ∧
      t.p.outer = 0x00 ∧ t.p.inner = 0x00 ∧ t.p.pstate = .ok ∧ t.host = later

/-- Unit P cannot run for ever. Over a loaded row, within 64 * 64 EVOLVEs it is idle or in fault (R105, an inference
the spec marks as its own). -/
def Obligations.PlaybackTerminates : Prop :=
  ∀ (s : State) (entries : List Byte) (later : List HostMove), s.c.cstate ≠ .busy →
    Memory.readRange s.mem.lut (slotIndex s.p.row 0) 64 = some entries →
    s.host = List.replicate (64 * 64) (moveOf .evolve) ++ later →
    ∃ n t, n ≤ 64 * 64 ∧ run n s = .next t ∧ (t.p.outer = 0 ∨ t.p.pstate = .fault)

/-- R102, R127: a table that meets the contract has, for every mode it lists and every pair of gray levels, a row
conformant for the Summary of the transition that row holds, if that Summary is not empty; the row holds one of the
transitions that share it with the pair given (log entry 19). Over a table as R40's builder makes it, a SCHEDULE of a
listed mode from idle raises nothing: it starts at the mode's offset, 1 or more, from which the Summary of any
transition of that mode stays inside the row. -/
def Obligations.TableContractGivesConformantRows : Prop :=
  ∀ (s : State) (first : Nat) (nonIdle : List (Byte × Nat)) (idle : List Byte) (T : TableSource)
    (source destination : Level) (mode : Byte), mode ∈ nonIdle.map Prod.fst ++ idle →
    (TableContract s first nonIdle idle T → T.held (rowOf source destination) mode ≠ [] →
      ∃ a b : Level, a.toNat / 2 = source.toNat / 2 ∧ b.toNat / 2 = destination.toNat / 2 ∧
        T.held (rowOf source destination) mode = T.summary a b mode ∧
        ∃ o, conformantRow s source destination mode o (T.summary a b mode)) ∧
    (BuiltTable s nonIdle idle T → s.p.pstate = .ok → s.p.outer = 0 →
      ∃ t, exec (.schedule source destination mode) s = .next t ∧ t.p.pstate = .ok ∧
        Memory.read s.mem.moff mode.toNat = some (BitVec.ofNat 8 (t.p.outer.toNat % 128)) ∧
        1 ≤ t.p.outer.toNat % 128 ∧
        ∀ a b : Level, t.p.outer.toNat % 128 + (T.summary a b mode).length ≤ 64)

/-! ## Images -/

/-- R41: a record is `8 + NUM_MODES + 16384` bytes, and its bytes read back as the record. -/
def Obligations.RecordReadsBackFromItsBytes : Prop :=
  ∀ (n : Nat) (r : LutRecord), r.wf n →
    (recordBytes r).length = 8 + n + 16384 ∧ readRecord n (recordBytes r) = some r

/-- R38, R41, R126: the host's loading of a record fills MOFF and LUT with it and touches nothing else. -/
def Obligations.LoadedRecordFillsTheTables : Prop :=
  ∀ (s : State) (r : LutRecord) (later : List HostMove), s.c.cstate ≠ .busy → r.wf s.cfg.numModes →
    s.host = loadRecord r ++ later →
    ∃ t, run (s.cfg.numModes + 16384) s = .next t ∧ t.host = later ∧
      Memory.readRange t.mem.moff 0 s.cfg.numModes = some r.offsets ∧
      Memory.readRange t.mem.lut 0 16384 = some r.table ∧
      t.mem.imem = s.mem.imem ∧ t.c = s.c ∧ t.p = s.p ∧ t.cfg = s.cfg

/-! ## The whole machine -/

/-- R12, R35: no instruction writes an addressed memory, a parameter or the host's list. -/
def Obligations.InstructionsWriteNoMemory : Prop :=
  ∀ (i : Instr) (s t : State), exec i s = .next t → t.mem = s.mem ∧ t.cfg = s.cfg ∧ t.host = s.host

/-- R1, R11: a token, a DEC or an ENC leaves every register and stream of unit P; an entry, a SCHEDULE, an EVOLVE or
a FRAME leaves every one of unit C. -/
def Obligations.UnitsShareNoState : Prop :=
  ∀ (i : Instr) (s t : State), exec i s = .next t →
    (unitOf i = some .codec → t.p = s.p) ∧ (unitOf i = some .player → t.c = s.c)

/-- An instruction of unit C and one of unit P can be taken in either order with the same result (the last sentence
of R48, an inference the spec marks as its own). -/
def Obligations.UnitsCommute : Prop :=
  ∀ (i j : Instr) (s a b : State), unitOf i = some .codec → unitOf j = some .player →
    exec i s = .next a → exec j a = .next b → ∃ c, exec j s = .next c ∧ exec i c = .next b

/-- R20, R98: no instruction writes the phase slot that is not active. -/
def Obligations.InactiveSlotIsNeverWritten : Prop :=
  ∀ (i : Instr) (s t : State), exec i s = .next t →
    if s.p.sel = true then t.p.ph0 = s.p.ph0 else t.p.ph1 = s.p.ph1

/-- R18, R21, R23: only SCHEDULE writes ROW, and only FRAME writes SEL. -/
def Obligations.RowAndSelHaveOneWriter : Prop :=
  ∀ (i : Instr) (s t : State), exec i s = .next t →
    (t.p.row ≠ s.p.row → ∃ source destination mode, i = .schedule source destination mode) ∧
    (t.p.sel ≠ s.p.sel → i = .frame)

/-- R37: HIST only grows, by one phase at a FRAME and by nothing otherwise; OUT only grows, but that an accepted DEC
or ENC empties it. -/
def Obligations.StreamsOnlyGrow : Prop :=
  ∀ (i : Instr) (s t : State), exec i s = .next t →
    (t.p.hist = s.p.hist ∨ i = .frame ∧ t.p.hist = s.p.hist ++ [activePhase s.p]) ∧
    ((∃ bytes, t.c.out = s.c.out ++ bytes) ∨
      ((∃ off bound, i = .dec off bound) ∨ ∃ src length, i = .enc src length) ∧ t.c.out = [])

/-- The model's invariant of every reachable state, from R15 to R18, R22, R35 and R108 to R110, is kept by every
step. -/
def Obligations.StepKeepsTheInvariant : Prop :=
  ∀ s t : State, s.inv → step s = .next t → t.inv

/-- The machine right after reset meets the invariant. -/
def Obligations.ResetMeetsTheInvariant : Prop := State.reset.inv
end

