-- ==== Sys2Proof/Laws/Memory.lean ====
section
/-! SUPPORT. The laws of the memories: a byte stored is read back, every other address reads as before, the canonical
form and the size are kept, and reading a range is reading its bytes. -/

namespace Sys2Proof.Machine

@[simp] theorem Memory.read_nil (a : Nat) : Memory.read [] a = none := rfl

theorem Memory.read_cons (x : Host.Cell) (m : Memory) (a : Nat) :
    Memory.read (x :: m) a = if x.1 = a then some x.2 else Memory.read m a := rfl

theorem Memory.wf_tail {x : Host.Cell} {m : Memory} (h : Memory.wf (x :: m) = true) : Memory.wf m = true := by
  cases m with
  | nil => rfl
  | cons y m => simp only [Memory.wf, Bool.and_eq_true] at h; exact h.2

/-- In canonical form nothing is stored at or below the first listed address but the first entry itself. -/
theorem Memory.wf_head_lt {x y : Host.Cell} {m : Memory} (h : Memory.wf (x :: m) = true) (hy : y ∈ m) :
    x.1 < y.1 := by
  induction m generalizing x with
  | nil => cases hy
  | cons z m ih =>
    simp only [Memory.wf, Bool.and_eq_true, decide_eq_true_eq] at h
    rcases List.mem_cons.1 hy with rfl | hy
    · exact h.1
    · exact Nat.lt_trans h.1 (ih h.2 hy)

theorem Memory.read_store_same (m : Memory) (a : Nat) (b : Byte) : Memory.read (Memory.store m a b) a = some b := by
  induction m with
  | nil => simp [Memory.store, Memory.read]
  | cons x m ih =>
    unfold Memory.store
    split
    · simp [Memory.read]
    · split
      · simp [Memory.read]
      · rename_i h
        simp [Memory.read, Ne.symm h, ih]

theorem Memory.read_store_other (m : Memory) {a a' : Nat} (b : Byte) (h : a' ≠ a) :
    Memory.read (Memory.store m a b) a' = Memory.read m a' := by
  induction m with
  | nil => simp [Memory.store, Memory.read, Ne.symm h]
  | cons x m ih =>
    unfold Memory.store
    split
    · simp [Memory.read, Ne.symm h]
    · split
      · rename_i hx
        simp [Memory.read, Ne.symm h, ← hx]
      · simp [Memory.read, ih]

/-- Whatever is listed after a store was listed before, or is the stored cell. -/
theorem Memory.mem_store {m : Memory} {a : Nat} {b : Byte} {y : Host.Cell} (h : y ∈ Memory.store m a b) :
    y = (a, b) ∨ y ∈ m := by
  induction m with
  | nil => simpa [Memory.store] using h
  | cons x m ih =>
    unfold Memory.store at h
    split at h
    · simpa using h
    · split at h
      · rcases List.mem_cons.1 h with h | h
        · exact .inl h
        · exact .inr (List.mem_cons_of_mem _ h)
      · rcases List.mem_cons.1 h with h | h
        · exact .inr (h ▸ List.mem_cons_self)
        · rcases ih h with h | h
          · exact .inl h
          · exact .inr (List.mem_cons_of_mem _ h)

/-- A cell below everything a canonical memory lists may stand before it. -/
theorem Memory.wf_cons {x : Host.Cell} {m : Memory} (hm : Memory.wf m = true) (h : ∀ y ∈ m, x.1 < y.1) :
    Memory.wf (x :: m) = true := by
  cases m with
  | nil => rfl
  | cons y m => simp [Memory.wf, hm, h y List.mem_cons_self]

/-- Every store keeps the canonical form. -/
theorem Memory.store_wf {m : Memory} (h : Memory.wf m = true) (a : Nat) (b : Byte) :
    Memory.wf (Memory.store m a b) = true := by
  induction m with
  | nil => rfl
  | cons x m ih =>
    have hlt : ∀ y ∈ m, x.1 < y.1 := fun y hy => Memory.wf_head_lt h hy
    unfold Memory.store
    split
    · rename_i ha
      refine Memory.wf_cons h fun y hy => ?_
      rcases List.mem_cons.1 hy with rfl | hy
      · exact ha
      · exact Nat.lt_trans ha (hlt y hy)
    · split
      · rename_i hx
        exact Memory.wf_cons (Memory.wf_tail h) fun y hy => hx ▸ hlt y hy
      · refine Memory.wf_cons (ih (Memory.wf_tail h)) fun y hy => ?_
        rcases Memory.mem_store hy with rfl | hy
        · simp only; omega
        · exact hlt y hy

/-- A store inside the size keeps every address inside it. -/
theorem Memory.store_within {m : Memory} {size a : Nat} (h : Memory.within size m = true) (ha : a < size) (b : Byte) :
    Memory.within size (Memory.store m a b) = true := by
  simp only [Memory.within, List.all_eq_true, decide_eq_true_eq] at h ⊢
  intro y hy
  rcases Memory.mem_store hy with rfl | hy
  · exact ha
  · exact h y hy

theorem storeBytes_wf {m : Memory} (h : Memory.wf m = true) (a : Nat) (bs : List Byte) :
    Memory.wf (storeBytes m a bs) = true := by
  induction bs generalizing m a with
  | nil => exact h
  | cons b bs ih => exact ih (Memory.store_wf h a b) (a + 1)

/-- Reading a range: as many bytes as asked for, each what its address holds. -/
theorem Memory.readRange_spec {m : Memory} {a n : Nat} {bs : List Byte} (h : Memory.readRange m a n = some bs) :
    bs.length = n ∧ ∀ k, k < n → Memory.read m (a + k) = bs[k]? := by
  induction n generalizing a bs with
  | zero => simp only [Memory.readRange, Option.some.injEq] at h; subst h; simp
  | succ n ih =>
    unfold Memory.readRange at h
    split at h
    · rename_i b rest hb hr
      simp only [Option.some.injEq] at h
      subst h
      obtain ⟨hl, hk⟩ := ih hr
      refine ⟨by simp [hl], fun k hk' => ?_⟩
      cases k with
      | zero => simpa using hb
      | succ k => simpa [Nat.add_assoc, Nat.add_comm, Nat.add_left_comm] using hk k (by omega)
    · cases h

end Sys2Proof.Machine
end

