-- ==== Sys2Proof/Laws/State.lean ====
section
/-! SUPPORT. What each named update of the state changes and what it leaves, part by part. Each lemma is true by
definition; later proofs cite them instead of unfolding an update. -/

namespace Sys2Proof.Config

@[simp] theorem slots_eq : slots = 64 := rfl
@[simp] theorem rows_eq : rows = 16 := rfl
@[simp] theorem lutBytes_eq : lutBytes = 16384 := rfl
@[simp] theorem maxCopies_eq : maxCopies = 256 := rfl
@[simp] theorem runCap_eq : runCap = 31 := rfl
@[simp] theorem addrSpace_eq : addrSpace = 16777216 := rfl

end Sys2Proof.Config

namespace Sys2Proof.Machine

/-! ## Unit C's updates -/

@[simp] theorem emitOut_cfg (bs : List Byte) (s : State) : (emitOut bs s).cfg = s.cfg := rfl
@[simp] theorem emitOut_p (bs : List Byte) (s : State) : (emitOut bs s).p = s.p := rfl
@[simp] theorem emitOut_mem (bs : List Byte) (s : State) : (emitOut bs s).mem = s.mem := rfl
@[simp] theorem emitOut_host (bs : List Byte) (s : State) : (emitOut bs s).host = s.host := rfl
@[simp] theorem emitOut_c (bs : List Byte) (s : State) : (emitOut bs s).c = { s.c with out := s.c.out ++ bs } := rfl

@[simp] theorem setMode_cfg (m : Mode) (s : State) : (setMode m s).cfg = s.cfg := rfl
@[simp] theorem setMode_p (m : Mode) (s : State) : (setMode m s).p = s.p := rfl
@[simp] theorem setMode_mem (m : Mode) (s : State) : (setMode m s).mem = s.mem := rfl
@[simp] theorem setMode_host (m : Mode) (s : State) : (setMode m s).host = s.host := rfl
@[simp] theorem setMode_c (m : Mode) (s : State) : (setMode m s).c = { s.c with mode := m } := rfl

@[simp] theorem setCur_cfg (a : Nat) (s : State) : (setCur a s).cfg = s.cfg := rfl
@[simp] theorem setCur_p (a : Nat) (s : State) : (setCur a s).p = s.p := rfl
@[simp] theorem setCur_mem (a : Nat) (s : State) : (setCur a s).mem = s.mem := rfl
@[simp] theorem setCur_host (a : Nat) (s : State) : (setCur a s).host = s.host := rfl
@[simp] theorem setCur_c (a : Nat) (s : State) : (setCur a s).c = { s.c with cur := a } := rfl

@[simp] theorem setCState_cfg (x : CState) (s : State) : (setCState x s).cfg = s.cfg := rfl
@[simp] theorem setCState_p (x : CState) (s : State) : (setCState x s).p = s.p := rfl
@[simp] theorem setCState_mem (x : CState) (s : State) : (setCState x s).mem = s.mem := rfl
@[simp] theorem setCState_host (x : CState) (s : State) : (setCState x s).host = s.host := rfl
@[simp] theorem setCState_c (x : CState) (s : State) : (setCState x s).c = { s.c with cstate := x } := rfl

@[simp] theorem openRun_cfg (a b : Nat) (e : Option Nat) (s : State) : (openRun a b e s).cfg = s.cfg := rfl
@[simp] theorem openRun_p (a b : Nat) (e : Option Nat) (s : State) : (openRun a b e s).p = s.p := rfl
@[simp] theorem openRun_mem (a b : Nat) (e : Option Nat) (s : State) : (openRun a b e s).mem = s.mem := rfl
@[simp] theorem openRun_host (a b : Nat) (e : Option Nat) (s : State) : (openRun a b e s).host = s.host := rfl
@[simp] theorem openRun_c (a b : Nat) (e : Option Nat) (s : State) :
    (openRun a b e s).c =
      { s.c with mode := .repeatMode, cur := a, bound := b, cstate := .busy, out := [], encSrc := e } := rfl

/-! ## Taking an exception, and RESET -/

@[simp] theorem takeException_cfg (u : HwUnit) (e : Exc) (s : State) : (takeException u e s).cfg = s.cfg := by
  cases u <;> rfl
@[simp] theorem takeException_mem (u : HwUnit) (e : Exc) (s : State) : (takeException u e s).mem = s.mem := by
  cases u <;> rfl
@[simp] theorem takeException_host (u : HwUnit) (e : Exc) (s : State) : (takeException u e s).host = s.host := by
  cases u <;> rfl
@[simp] theorem takeException_codec_p (e : Exc) (s : State) : (takeException .codec e s).p = s.p := rfl
@[simp] theorem takeException_player_c (e : Exc) (s : State) : (takeException .player e s).c = s.c := rfl
@[simp] theorem takeException_codec_c (e : Exc) (s : State) :
    (takeException .codec e s).c =
      { s.c with cstate := .fault, ccause := causeCode (excCause e), ckind := excKind e, cinfo := excInfo e } := rfl
@[simp] theorem takeException_player_p (e : Exc) (s : State) :
    (takeException .player e s).p =
      { s.p with pstate := .fault, pcause := causeCode (excCause e), pkind := excKind e,
                 pinfo := BitVec.ofNat 8 (excInfo e) } := rfl

@[simp] theorem applyReset_cfg (s : State) : (applyReset s).cfg = s.cfg := rfl
@[simp] theorem applyReset_mem (s : State) : (applyReset s).mem = s.mem := rfl
@[simp] theorem applyReset_host (s : State) : (applyReset s).host = s.host := rfl
@[simp] theorem applyReset_c (s : State) : (applyReset s).c = UnitC.atReset := rfl
@[simp] theorem applyReset_p (s : State) : (applyReset s).p = UnitP.atReset := rfl

/-! ## Unit P's updates -/

@[simp] theorem emitHist_cfg (ph : Phase) (s : State) : (emitHist ph s).cfg = s.cfg := rfl
@[simp] theorem emitHist_c (ph : Phase) (s : State) : (emitHist ph s).c = s.c := rfl
@[simp] theorem emitHist_mem (ph : Phase) (s : State) : (emitHist ph s).mem = s.mem := rfl
@[simp] theorem emitHist_host (ph : Phase) (s : State) : (emitHist ph s).host = s.host := rfl
@[simp] theorem emitHist_p (ph : Phase) (s : State) :
    (emitHist ph s).p = { s.p with hist := s.p.hist ++ [ph] } := rfl

@[simp] theorem setCounters_cfg (o : OuterWord) (i : Byte) (s : State) : (setCounters o i s).cfg = s.cfg := rfl
@[simp] theorem setCounters_c (o : OuterWord) (i : Byte) (s : State) : (setCounters o i s).c = s.c := rfl
@[simp] theorem setCounters_mem (o : OuterWord) (i : Byte) (s : State) : (setCounters o i s).mem = s.mem := rfl
@[simp] theorem setCounters_host (o : OuterWord) (i : Byte) (s : State) : (setCounters o i s).host = s.host := rfl

@[simp] theorem setActivePhase_outer (ph : Phase) (p : UnitP) : (setActivePhase ph p).outer = p.outer := by
  unfold setActivePhase; split <;> rfl
@[simp] theorem setActivePhase_inner (ph : Phase) (p : UnitP) : (setActivePhase ph p).inner = p.inner := by
  unfold setActivePhase; split <;> rfl
@[simp] theorem setActivePhase_sel (ph : Phase) (p : UnitP) : (setActivePhase ph p).sel = p.sel := by
  unfold setActivePhase; split <;> rfl
@[simp] theorem setActivePhase_row (ph : Phase) (p : UnitP) : (setActivePhase ph p).row = p.row := by
  unfold setActivePhase; split <;> rfl
@[simp] theorem setActivePhase_pstate (ph : Phase) (p : UnitP) : (setActivePhase ph p).pstate = p.pstate := by
  unfold setActivePhase; split <;> rfl
@[simp] theorem setActivePhase_pcause (ph : Phase) (p : UnitP) : (setActivePhase ph p).pcause = p.pcause := by
  unfold setActivePhase; split <;> rfl
@[simp] theorem setActivePhase_pkind (ph : Phase) (p : UnitP) : (setActivePhase ph p).pkind = p.pkind := by
  unfold setActivePhase; split <;> rfl
@[simp] theorem setActivePhase_pinfo (ph : Phase) (p : UnitP) : (setActivePhase ph p).pinfo = p.pinfo := by
  unfold setActivePhase; split <;> rfl
@[simp] theorem setActivePhase_hist (ph : Phase) (p : UnitP) : (setActivePhase ph p).hist = p.hist := by
  unfold setActivePhase; split <;> rfl
@[simp] theorem activePhase_setActivePhase (ph : Phase) (p : UnitP) : activePhase (setActivePhase ph p) = ph := by
  cases h : p.sel <;> simp [activePhase, setActivePhase, h]

@[simp] theorem setCounters_outer (o : OuterWord) (i : Byte) (s : State) : (setCounters o i s).p.outer = o := by
  simp [setCounters]
@[simp] theorem setCounters_inner (o : OuterWord) (i : Byte) (s : State) : (setCounters o i s).p.inner = i := by
  simp [setCounters]
@[simp] theorem setCounters_sel (o : OuterWord) (i : Byte) (s : State) : (setCounters o i s).p.sel = s.p.sel := by
  simp [setCounters]
@[simp] theorem setCounters_row (o : OuterWord) (i : Byte) (s : State) : (setCounters o i s).p.row = s.p.row := by
  simp [setCounters]
@[simp] theorem setCounters_pstate (o : OuterWord) (i : Byte) (s : State) : (setCounters o i s).p.pstate = s.p.pstate := by
  simp [setCounters]
@[simp] theorem setCounters_pcause (o : OuterWord) (i : Byte) (s : State) : (setCounters o i s).p.pcause = s.p.pcause := by
  simp [setCounters]
@[simp] theorem setCounters_pkind (o : OuterWord) (i : Byte) (s : State) : (setCounters o i s).p.pkind = s.p.pkind := by
  simp [setCounters]
@[simp] theorem setCounters_pinfo (o : OuterWord) (i : Byte) (s : State) : (setCounters o i s).p.pinfo = s.p.pinfo := by
  simp [setCounters]
@[simp] theorem setCounters_hist (o : OuterWord) (i : Byte) (s : State) : (setCounters o i s).p.hist = s.p.hist := by
  simp [setCounters]
@[simp] theorem activePhase_setCounters (o : OuterWord) (i : Byte) (s : State) :
    activePhase (setCounters o i s).p = phaseOf i := by
  simp [setCounters]

/-! ## Memories -/

@[simp] theorem Memories.get_set_same (m : Memories) (space : Space) (x : Memory) :
    (m.set space x).get space = x := by
  cases space <;> rfl
@[simp] theorem Memories.set_imem (m : Memories) (x : Memory) : m.set .imem x = { m with imem := x } := rfl
@[simp] theorem Memories.set_lut (m : Memories) (x : Memory) : m.set .lut x = { m with lut := x } := rfl
@[simp] theorem Memories.set_moff (m : Memories) (x : Memory) : m.set .moff x = { m with moff := x } := rfl
@[simp] theorem Memories.get_imem (m : Memories) : m.get .imem = m.imem := rfl
@[simp] theorem Memories.get_lut (m : Memories) : m.get .lut = m.lut := rfl
@[simp] theorem Memories.get_moff (m : Memories) : m.get .moff = m.moff := rfl

end Sys2Proof.Machine
end

