-- ==== Sys2Proof/Laws/Ops.lean ====
section
/-! SUPPORT. For each shared operation one lemma that says everything it can do, so that a proof cites it instead of
unfolding the operation. -/

namespace Sys2Proof.Machine

/-! ## Reads -/

theorem fetch_beyond {s : State} {a : Nat} (h : limit s ≤ a) : fetch s a = .beyond := by
  simp [fetch, h]

theorem fetch_byte {s : State} {a : Nat} {b : Byte} (h : a < limit s) (hb : Memory.read s.mem.imem a = some b) :
    fetch s a = .byte b := by
  simp [fetch, Nat.not_le.2 h, hb]

theorem fetch_unloaded {s : State} {a : Nat} (h : a < limit s) (hb : Memory.read s.mem.imem a = none) :
    fetch s a = .unloaded := by
  simp [fetch, Nat.not_le.2 h, hb]

/-- What a bounds-checked read can find (R36). -/
theorem fetch_cases (s : State) (a : Nat) :
    (limit s ≤ a ∧ fetch s a = .beyond) ∨
      (a < limit s ∧ ∃ b, Memory.read s.mem.imem a = some b ∧ fetch s a = .byte b) ∨
      (a < limit s ∧ Memory.read s.mem.imem a = none ∧ fetch s a = .unloaded) := by
  by_cases h : limit s ≤ a
  · exact .inl ⟨h, fetch_beyond h⟩
  · have h := Nat.not_le.1 h
    cases hb : Memory.read s.mem.imem a with
    | none => exact .inr (.inr ⟨h, rfl, fetch_unloaded h hb⟩)
    | some b => exact .inr (.inl ⟨h, b, rfl, fetch_byte h hb⟩)

/-- What a slot-checked read can find (R39). -/
theorem lutFetch_cases (s : State) (row : RowPair) (k : Nat) :
    (64 ≤ k ∧ lutFetch s row k = .outside) ∨
      (k < 64 ∧ ∃ b, Memory.read s.mem.lut (slotIndex row k) = some b ∧ lutFetch s row k = .entry b) ∨
      (k < 64 ∧ Memory.read s.mem.lut (slotIndex row k) = none ∧ lutFetch s row k = .unloaded) := by
  by_cases h : 64 ≤ k
  · exact .inl ⟨h, by simp [lutFetch, h]⟩
  · have h' := Nat.not_le.1 h
    cases hb : Memory.read s.mem.lut (slotIndex row k) with
    | none => exact .inr (.inr ⟨h', rfl, by simp [lutFetch, h, hb]⟩)
    | some b => exact .inr (.inl ⟨h', b, rfl, by simp [lutFetch, h, hb]⟩)

/-! ## The token's addresses -/

theorem provided_one (a : Nat) (t s : State) :
    provided [a] t s = .next (if limit s ≤ a then takeException .codec (.truncated a) s else t) := by
  by_cases h : limit s ≤ a <;> simp [provided, h]

theorem provided_two (a b : Nat) (t s : State) :
    provided [a, b] t s =
      .next (if limit s ≤ a then takeException .codec (.truncated a) s
        else if limit s ≤ b then takeException .codec (.truncated b) s else t) := by
  by_cases h : limit s ≤ a <;> by_cases h' : limit s ≤ b <;> simp [provided, h, h']

/-- The order of the tests at a token position: END, TOG, then the mode (R50). -/
theorem decodeToken_cons (m : Mode) (t : Byte) (rest : List Byte) :
    decodeToken m (t :: rest) =
      if t = Config.endToken then .ok (.endTok, rest)
      else if t = Config.toggleToken then decodeToggled m rest else decodeValue m t rest := rfl

theorem decodeToggled_error {m : Mode} {bytes : List Byte} {k : Nat}
    (h : decodeToggled m bytes = .error (.needByte k)) : bytes.length + 1 = k ∧ k ≤ 2 := by
  match m, bytes with
  | .repeatMode, [] | .literalMode, [] => simp_all [decodeToggled]; omega
  | .repeatMode, [_] | .repeatMode, _ :: _ :: _ => cases h
  | .literalMode, [_] => simp_all [decodeToggled]
  | .literalMode, _ :: _ :: _ => cases h

theorem decodeValue_error {m : Mode} {v : Byte} {bytes : List Byte} {k : Nat}
    (h : decodeValue m v bytes = .error (.needByte k)) : bytes.length + 1 = k ∧ k ≤ 2 := by
  match m, bytes with
  | .literalMode, _ => cases h
  | .repeatMode, [] => simp_all [decodeValue]; omega
  | .repeatMode, _ :: _ => cases h

/-- The decoder asks for no byte but the one just past those it was given (R66). -/
theorem decodeToken_error {m : Mode} {bytes : List Byte} {k : Nat}
    (h : decodeToken m bytes = .error (.needByte k)) : bytes.length = k ∧ k ≤ 2 := by
  cases bytes with
  | nil => simp only [decodeToken, Except.error.injEq, DecodeError.needByte.injEq] at h; subst h; simp
  | cons t rest =>
    rw [decodeToken_cons] at h
    split at h
    · cases h
    · split at h
      · exact decodeToggled_error h
      · exact decodeValue_error h

/-- The bytes the token window holds lie below the limit and are IMEM's, and it ends early only before a byte that
cannot be fetched. -/
theorem window_spec (s : State) (a n : Nat) :
    (window s a n).length ≤ n ∧
      (∀ k, k < (window s a n).length →
        a + k < limit s ∧ Memory.read s.mem.imem (a + k) = (window s a n)[k]?) ∧
      ((window s a n).length < n →
        limit s ≤ a + (window s a n).length ∨ Memory.read s.mem.imem (a + (window s a n).length) = none) := by
  induction n generalizing a with
  | zero => simp [window]
  | succ n ih =>
    rcases fetch_cases s a with ⟨h, hf⟩ | ⟨h, b, hb, hf⟩ | ⟨h, hb, hf⟩
    · simp [window, hf, h]
    · obtain ⟨hl, hk, hs⟩ := ih (a + 1)
      simp only [window, hf, List.length_cons]
      refine ⟨by omega, fun k hk' => ?_, fun hn => ?_⟩
      · cases k with
        | zero => simpa using ⟨h, hb⟩
        | succ k =>
          have := hk k (by omega)
          rw [show a + (k + 1) = a + 1 + k by omega]
          simpa using this
      · have := hs (by omega)
        rwa [show a + ((window s (a + 1) n).length + 1) = a + 1 + (window s (a + 1) n).length by omega]
    · simp [window, hf, hb]

/-! ## EVOLVE -/

/-- Every next state of case E3 (R95). -/
theorem evolveE3_next {s t : State} (h : evolveE3 s = .next t) :
    (64 ≤ (idxOf s.p.outer).toNat + 1 ∧
        t = takeException .player (.lutIndex ((idxOf s.p.outer).toNat + 1)) s) ∨
      ((idxOf s.p.outer).toNat + 1 < 64 ∧ ∃ b,
        Memory.read s.mem.lut (slotIndex s.p.row ((idxOf s.p.outer).toNat + 1)) = some b ∧
        t = setCounters (outerOf true (BitVec.ofNat _ ((idxOf s.p.outer).toNat + 1))) b s) := by
  unfold evolveE3 at h
  rcases lutFetch_cases s s.p.row ((idxOf s.p.outer).toNat + 1) with ⟨hk, hf⟩ | ⟨hk, b, hb, hf⟩ | ⟨hk, hb, hf⟩
  · simp only [hf, Host.Outcome.next.injEq] at h
    exact .inl ⟨hk, h.symm⟩
  · simp only [hf, Host.Outcome.next.injEq] at h
    exact .inr ⟨hk, b, hb, h.symm⟩
  · simp only [hf] at h
    cases h

/-- Every next state of an EVOLVE with `b` in INNER: nothing, a count down, a load, a fault, or idle (R93). -/
theorem evolveWith_next {b : Byte} {s t : State} (h : evolveWith b s = .next t) :
    ((s.p.pstate = .fault ∨ s.p.outer = 0) ∧ t = s) ∨
      (1 < (remOf b).toNat ∧ dbOf s.p.outer = true ∧ t = evolveE2 b s) ∨
      (remOf b = 1 ∧ evolveE3 s = .next t) ∨
      (remOf b = 0 ∧ t = evolveE4 s) ∨
      (1 < (remOf b).toNat ∧ dbOf s.p.outer = false ∧ t = evolveE5 b s) := by
  unfold evolveWith at h
  split at h
  · rename_i hf; cases h; exact .inl ⟨.inl hf, rfl⟩
  split at h
  · rename_i ho; cases h; exact .inl ⟨.inr ho, rfl⟩
  split at h
  · rename_i h2; cases h; exact .inr (.inl ⟨h2.1, h2.2, rfl⟩)
  split at h
  · rename_i h3; exact .inr (.inr (.inl ⟨h3, h⟩))
  split at h
  · rename_i h4; cases h; exact .inr (.inr (.inr (.inl ⟨h4, rfl⟩)))
  · rename_i h2 h3 h4
    cases h
    have hr : 1 < (remOf b).toNat := by
      have h3' : (remOf b).toNat ≠ 1 := fun e => h3 (by apply BitVec.eq_of_toNat_eq; simpa using e)
      have h4' : (remOf b).toNat ≠ 0 := fun e => h4 (by apply BitVec.eq_of_toNat_eq; simpa using e)
      omega
    refine .inr (.inr (.inr (.inr ⟨hr, ?_, rfl⟩)))
    cases hd : dbOf s.p.outer with
    | false => rfl
    | true => exact absurd ⟨hr, hd⟩ h2

/-! ## Operations -/

/-- Every next state of a SCHEDULE (R92). -/
theorem execSchedule_next {source destination : Level} {mode : Byte} {s t : State}
    (h : execSchedule source destination mode s = .next t) :
    ((s.p.pstate = .fault ∨ s.p.outer ≠ 0) ∧ t = s) ∨
      (s.cfg.numModes ≤ mode.toNat ∧ t = takeException .player (.modeIndex mode.toNat) s) ∨
      (mode.toNat < s.cfg.numModes ∧ ∃ o, Memory.read s.mem.moff mode.toNat = some o ∧
        ((64 ≤ o.toNat ∧ t = takeException .player (.lutIndex o.toNat) s) ∨
          (o.toNat < 64 ∧ ∃ b,
            Memory.read s.mem.lut (slotIndex (rowOf source destination) o.toNat) = some b ∧
            t = setCounters (outerOf (loadedDb b) (o.setWidth _)) b
              { s with p := { s.p with row := rowOf source destination } }))) := by
  unfold execSchedule at h
  split at h
  · rename_i hf; cases h; exact .inl ⟨.inl hf, rfl⟩
  split at h
  · rename_i ho; cases h; exact .inl ⟨.inr ho, rfl⟩
  split at h
  · rename_i hm; cases h; exact .inr (.inl ⟨hm, rfl⟩)
  rename_i hm
  refine .inr (.inr ⟨Nat.not_le.1 hm, ?_⟩)
  cases ho : Memory.read s.mem.moff mode.toNat with
  | none => simp [ho] at h
  | some o =>
    simp only [ho] at h
    refine ⟨o, rfl, ?_⟩
    rcases lutFetch_cases s (rowOf source destination) o.toNat with ⟨hk, hf⟩ | ⟨hk, b, hb, hf⟩ | ⟨hk, hb, hf⟩
    · simp only [hf, Host.Outcome.next.injEq] at h
      exact .inl ⟨hk, h.symm⟩
    · simp only [hf, Host.Outcome.next.injEq] at h
      exact .inr ⟨hk, b, hb, h.symm⟩
    · simp only [hf] at h
      cases h

/-- The input check is clean exactly when every input address is readable and holds a value ENC accepts (R81). -/
theorem checkInput_clean {s : State} {a n : Nat} :
    checkInput s a n = .clean ↔
      ∀ j, a ≤ j → j < a + n → j < limit s ∧ ∃ v, Memory.read s.mem.imem j = some v ∧ reserved v = false := by
  induction n generalizing a with
  | zero => simp only [checkInput, true_iff]; intro j h1 h2; omega
  | succ n ih =>
    unfold checkInput
    rcases fetch_cases s a with ⟨h, hf⟩ | ⟨h, b, hb, hf⟩ | ⟨h, hb, hf⟩
    · simp only [hf, reduceCtorEq, false_iff, not_forall]
      exact ⟨a, by omega, by omega, fun hc => by omega⟩
    · simp only [hf]
      cases hr : reserved b with
      | true =>
        simp only [if_true, reduceCtorEq, false_iff, not_forall]
        refine ⟨a, by omega, by omega, fun ⟨_, v, hv, hvr⟩ => ?_⟩
        rw [hb] at hv
        cases hv
        simp [hr] at hvr
      | false =>
        simp only [Bool.false_eq_true, if_false, ih]
        constructor
        · intro hc j h1 h2
          rcases Nat.eq_or_lt_of_le h1 with rfl | h1
          · exact ⟨h, b, hb, hr⟩
          · exact hc j h1 (by omega)
        · intro hc j h1 h2
          exact hc j (by omega) (by omega)
    · simp only [hf, reduceCtorEq, false_iff, not_forall]
      refine ⟨a, by omega, by omega, fun ⟨_, v, hv, _⟩ => ?_⟩
      rw [hb] at hv
      cases hv

/-! ## Tokens, the two codec operations and the encoder step -/

/-- Every outcome of a meaning whose operand addresses are checked first (R36, R112). -/
theorem provided_next {addresses : List Nat} {s t u : State} (h : provided addresses t s = .next u) :
    (u = t ∧ ∀ a ∈ addresses, a < limit s) ∨ ∃ a ∈ addresses, u = takeException .codec (.truncated a) s := by
  unfold provided at h
  cases hf : addresses.find? (fun a => decide (limit s ≤ a)) with
  | none =>
    rw [hf] at h
    cases h
    refine .inl ⟨rfl, fun a ha => ?_⟩
    have := List.find?_eq_none.1 hf a ha
    simpa using this
  | some a =>
    rw [hf] at h
    cases h
    exact .inr ⟨a, List.mem_of_find?_eq_some hf, rfl⟩

/-- Every next state of a TOG (R68). -/
theorem execTog_next {v : Byte} {count : Option Byte} {s t : State} (h : execTog v count s = .next t) :
    (∃ a, t = takeException .codec (.truncated a) s) ∨
      (count = none ∧ s.c.cur + 1 < limit s ∧ t = litToken (s.c.cur + 1) v (setMode .literalMode s)) ∨
      (∃ c, count = some c ∧ s.c.cur + 2 < limit s ∧
        t = repToken (s.c.cur + 1) v c (setMode .repeatMode s)) := by
  cases count with
  | none =>
    rcases provided_next (show provided _ _ _ = _ from h) with ⟨rfl, hl⟩ | ⟨a, _, ht⟩
    · exact .inr (.inl ⟨rfl, by simpa using hl, rfl⟩)
    · exact .inl ⟨a, ht⟩
  | some c =>
    rcases provided_next (show provided _ _ _ = _ from h) with ⟨rfl, hl⟩ | ⟨a, _, ht⟩
    · exact .inr (.inr ⟨c, rfl, hl _ (by simp), rfl⟩)
    · exact .inl ⟨a, ht⟩

/-- The decoder answers nothing but the four kinds of token (R50). -/
theorem decodeToken_forms {m : Mode} {bytes : List Byte} {i : Instr} {rest : List Byte}
    (h : decodeToken m bytes = .ok (i, rest)) :
    i = .endTok ∨ (∃ v, i = .tog v none) ∨ (∃ v c, i = .tog v (some c)) ∨ (∃ v c, i = .rep v c) ∨
      ∃ v, i = .lit v := by
  cases bytes with
  | nil => cases h
  | cons t bytes =>
    rw [decodeToken_cons] at h
    split at h
    · cases h; exact .inl rfl
    split at h
    · cases m <;> rcases bytes with _ | ⟨v, _ | ⟨c, bytes⟩⟩ <;> cases h <;> simp
    · cases m <;> rcases bytes with _ | ⟨v, bytes⟩ <;> cases h <;> simp

/-- Every next state of a DEC (R65, R114). -/
theorem execDec_next {off : Addr} {bound : Extent} {s t : State} (h : execDec off bound s = .next t) :
    t = s ∨ accepts s.c.cstate = true ∧ t = openRun off.toNat bound.toNat none s := by
  unfold execDec at h
  split at h <;> cases h
  · rename_i ha; exact .inr ⟨ha, rfl⟩
  · exact .inl rfl

/-- Every next state of an ENC: nothing, the opened run, or the check's exception on it (R81, R112, R114). -/
theorem execEnc_next {src : Addr} {length : Extent} {s t : State}
    (h : execEnc src length s = .next t) :
    t = s ∨ accepts s.c.cstate = true ∧ ∃ u,
      u = openRun src.toNat (src.toNat + length.toNat) (some src.toNat) s ∧
      ((checkInput u src.toNat length.toNat = .clean ∧ t = u) ∨
        ∃ e, checkInput u src.toNat length.toNat = .raises e ∧ t = takeException .codec e u) := by
  unfold execEnc at h
  split at h
  · rename_i ha
    refine .inr ⟨ha, _, rfl, ?_⟩
    dsimp only at h
    split at h
    · rename_i hc; cases h; exact .inl ⟨hc, rfl⟩
    · rename_i e hc; cases h; exact .inr ⟨e, hc, rfl⟩
    · cases h
  · cases h; exact .inl rfl

theorem countEqual_le (m : Memory) (v : Option Byte) (a n : Nat) : countEqual m v a n ≤ n := by
  induction n generalizing a with
  | zero => exact Nat.le_refl _
  | succ n ih =>
    unfold countEqual
    split
    · exact Nat.succ_le_succ (ih _)
    · exact Nat.zero_le _

theorem countSingles_le (m : Memory) (src bound a n : Nat) : countSingles m src bound a n ≤ n := by
  induction n generalizing a with
  | zero => exact Nat.le_refl _
  | succ n ih =>
    unfold countSingles
    split
    · exact Nat.succ_le_succ (ih _)
    · exact Nat.zero_le _

/-- Every next state of the encoder step: the end, one run, or one stretch (R82). -/
theorem encStep_next {src : Nat} {s t : State} (h : encStep src s = .next t) :
    (s.c.bound ≤ s.c.cur ∧ t = encEnd s) ∨
      (s.c.cur < s.c.bound ∧ 2 ≤ runLength s.mem.imem s.c.cur s.c.bound ∧ ∃ v,
        Memory.readRange s.mem.imem s.c.cur 1 = some [v] ∧
        t = encRun v (runLength s.mem.imem s.c.cur s.c.bound) s) ∨
      (s.c.cur < s.c.bound ∧ ¬ 2 ≤ runLength s.mem.imem s.c.cur s.c.bound ∧ ∃ ws,
        ws.length = stretchLength s.mem.imem src s.c.bound s.c.cur ∧
        Memory.readRange s.mem.imem s.c.cur ws.length = some ws ∧ t = encStretch ws s) := by
  unfold encStep at h
  split at h
  · rename_i hc; cases h; exact .inl ⟨hc, rfl⟩
  rename_i hc
  have hc := Nat.not_le.1 hc
  dsimp only at h
  split at h
  · cases h
  rename_i ws hws
  have hl := (Memory.readRange_spec hws).1
  by_cases h2 : 2 ≤ runLength s.mem.imem s.c.cur s.c.bound
  · simp only [h2, if_true] at h hws hl
    cases h
    obtain ⟨v, rfl⟩ := List.length_eq_one_iff.1 hl
    exact .inr (.inl ⟨hc, h2, v, hws, rfl⟩)
  · simp only [h2, if_false] at h hws hl
    cases h
    exact .inr (.inr ⟨hc, h2, ws, hl, by rw [hl]; exact hws, rfl⟩)

/-! ## Unit P's shared write -/

/-- `setCounters` in the form the statements use (R98). -/
theorem setCounters_playing (outer : OuterWord) (inner : Byte) (s : State) :
    setCounters outer inner s = playing outer inner (phaseOf inner) s := by
  cases h : s.p.sel <;> simp [setCounters, playing, setActivePhase, h]

/-- Every next state of a FRAME (R99, R114). -/
theorem execFrame_next {s t : State} (h : execFrame s = .next t) :
    (s.p.pstate = .fault ∧ t = s) ∨
      (s.p.pstate ≠ .fault ∧
        t = { s with p := { s.p with hist := s.p.hist ++ [activePhase s.p], sel := !s.p.sel } }) := by
  unfold execFrame at h
  split at h
  · rename_i hf; cases h; exact .inl ⟨hf, rfl⟩
  · rename_i hf; cases h; exact .inr ⟨hf, rfl⟩

/-! ## The step -/

/-- Everything a step can do, when it answers a next state (R48, R66, R82, R123, R124, R128). -/
theorem step_next {s t : State} (h : step s = .next t) :
    (s.c.cstate = .busy ∧ ∃ src, s.c.encSrc = some src ∧ encStep src s = .next t) ∨
      (s.c.cstate = .busy ∧ s.c.encSrc = none ∧ ∃ i rest,
        decodeToken s.c.mode (tokenWindow s) = .ok (i, rest) ∧ exec i s = .next t) ∨
      (s.c.cstate = .busy ∧ s.c.encSrc = none ∧ ∃ k,
        decodeToken s.c.mode (tokenWindow s) = .error (.needByte k) ∧ limit s ≤ s.c.cur + k ∧
        t = takeException .codec (.truncated (s.c.cur + k)) s) ∨
      (s.c.cstate ≠ .busy ∧ s.host = [] ∧ t = s) ∨
      (s.c.cstate ≠ .busy ∧ ∃ later, s.host = .reset :: later ∧ t = applyReset { s with host := later }) ∨
      (s.c.cstate ≠ .busy ∧ ∃ p later, s.host = .operation p :: later ∧
        exec (decodeOp p) { s with host := later } = .next t) ∨
      (s.c.cstate ≠ .busy ∧ ∃ space a b later, s.host = .write space a b :: later ∧
        a < spaceSize s.cfg space ∧
        t = { s with host := later, mem := s.mem.set space (Memory.store (s.mem.get space) a b) }) ∨
      (s.c.cstate ≠ .busy ∧ ∃ r later, s.host = .read r :: later ∧ t = { s with host := later }) := by
  unfold step nextIssue at h
  by_cases hb : s.c.cstate = .busy
  · simp only [hb, if_true] at h
    cases he : s.c.encSrc with
    | some src =>
      simp only [he] at h
      exact .inl ⟨hb, src, rfl, h⟩
    | none =>
      simp only [he, tokenIssue] at h
      cases hd : decodeToken s.c.mode (tokenWindow s) with
      | ok x =>
        simp only [hd] at h
        exact .inr (.inl ⟨hb, rfl, x.1, x.2, rfl, h⟩)
      | error e =>
        cases e with
        | needByte k =>
          simp only [hd] at h
          by_cases hk : limit s ≤ s.c.cur + k
          · simp only [hk, if_true, Host.Outcome.next.injEq] at h
            exact .inr (.inr (.inl ⟨hb, rfl, k, rfl, hk, h.symm⟩))
          · simp only [hk, if_false] at h
            cases h
  · simp only [hb, if_false, hostIssue] at h
    refine .inr (.inr (.inr ?_))
    cases hh : s.host with
    | nil =>
      simp only [hh, Host.Outcome.next.injEq] at h
      exact .inl ⟨hb, rfl, h.symm⟩
    | cons move later =>
      refine .inr ?_
      cases move with
      | reset =>
        simp only [hh, Host.Outcome.next.injEq] at h
        exact .inl ⟨hb, later, rfl, h.symm⟩
      | operation p =>
        simp only [hh] at h
        exact .inr (.inl ⟨hb, p, later, rfl, h⟩)
      | write space a b =>
        simp only [hh, hostWrite] at h
        by_cases ha : a < spaceSize s.cfg space
        · simp only [ha, if_true, Host.Outcome.next.injEq] at h
          exact .inr (.inr (.inl ⟨hb, space, a, b, later, rfl, ha, h.symm⟩))
        · simp only [ha, if_false] at h
          cases h
      | read r =>
        simp only [hh, Host.Outcome.next.injEq] at h
        exact .inr (.inr (.inr ⟨hb, r, later, rfl, h.symm⟩))

end Sys2Proof.Machine
end

