-- ==== Sys2Proof/Laws/PerInstr.lean ====
section
/-! SUPPORT. Statements made once per instruction. `EncodedSize`: an instruction whose code is stream bytes occupies
1, 2 or 3 of them (R50). -/

namespace Sys2Proof.Laws

/-- A token occupies 1, 2 or 3 bytes (R50). -/
def EncodedSize.Statement (i : Instr) : Prop :=
  ∀ bytes, encode i = .stream bytes → 1 ≤ bytes.length ∧ bytes.length ≤ 3

theorem EncodedSize.endTok : EncodedSize.Statement .endTok := by
  intro bytes h; cases h; simp

theorem EncodedSize.tog (v : Byte) (count : Option Byte) : EncodedSize.Statement (.tog v count) := by
  intro bytes h; cases count <;> cases h <;> simp

theorem EncodedSize.rep (v c : Byte) : EncodedSize.Statement (.rep v c) := by
  intro bytes h; cases h; simp

theorem EncodedSize.lit (v : Byte) : EncodedSize.Statement (.lit v) := by
  intro bytes h; cases h; simp

theorem EncodedSize.nil : EncodedSize.Statement .nil := by
  intro bytes h; cases h

theorem EncodedSize.pair (p : Phase) (r : RunLength) : EncodedSize.Statement (.pair p r) := by
  intro bytes h; cases h

theorem EncodedSize.pairLast (p : Phase) (r : RunLength) : EncodedSize.Statement (.pairLast p r) := by
  intro bytes h; cases h

theorem EncodedSize.reservedEntry (p : Phase) (eos : Bool) : EncodedSize.Statement (.reservedEntry p eos) := by
  intro bytes h; cases h

theorem EncodedSize.dec (off : Addr) (bound : Extent) : EncodedSize.Statement (.dec off bound) := by
  intro bytes h; cases h

theorem EncodedSize.enc (src : Addr) (length : Extent) : EncodedSize.Statement (.enc src length) := by
  intro bytes h; cases h

theorem EncodedSize.schedule (source destination : Level) (mode : Byte) :
    EncodedSize.Statement (.schedule source destination mode) := by
  intro bytes h; cases h

theorem EncodedSize.evolve : EncodedSize.Statement .evolve := by
  intro bytes h; cases h

theorem EncodedSize.frame : EncodedSize.Statement .frame := by
  intro bytes h; cases h

theorem EncodedSize.reservedOp (code : BitVec 3) : EncodedSize.Statement (.reservedOp code) := by
  intro bytes h; cases h

end Sys2Proof.Laws
end

