-- ==== Sys2Proof/Tests/Slice0.lean ====
section
/-! SUPPORT. Tests of the model: ill-formed terms refused, words written out from the spec's encodings, at most two
one-step tests per instruction with results taken from the spec, and for each statement that has hypotheses a
concrete state and operands that meet them. -/

namespace Sys2Proof.Machine.Test

/-! ## Helpers -/

/-- A predicate of the next state, if there is one. -/
def nextIs (r : Result) (f : State → Bool) : Bool :=
  match r with
  | .next t => f t
  | .fault _ => false
  | .refused _ => false

/-- A DEC in progress over the given bytes from address 0. -/
def decoding (mode : Mode) (cur bound : Nat) (bytes : List Byte) : State :=
  { State.reset with
    c := { UnitC.atReset with mode, cur, bound, cstate := .busy }
    mem := { imem := storeBytes [] 0 bytes, lut := [], moff := [] } }

/-- An ENC in progress over the given bytes from address 0. -/
def encoding (threshold : Threshold) (mode : Mode) (cur : Nat) (bytes : List Byte) : State :=
  { decoding mode cur bytes.length bytes with
    cfg := { Config.atReset with threshold }
    c := { UnitC.atReset with mode, cur, bound := bytes.length, cstate := .busy, encSrc := some 0 } }

/-- Unit C idle, the bytes in IMEM from address 0, the host's moves pending. -/
def loaded (bytes : List Byte) (host : List HostMove) : State :=
  { State.reset with mem := { imem := storeBytes [] 0 bytes, lut := [], moff := [] }, host }

/-- Unit P with OUTER and INNER given, the bytes in row 0 from slot 1 on, MOFF[0] = 1. -/
def player (outer : OuterWord) (inner : Byte) (slots : List Byte) (host : List HostMove) : State :=
  { State.reset with
    p := { UnitP.atReset with outer, inner }
    mem := { imem := [], lut := storeBytes [] 1 slots, moff := [(0, 1)] }
    host }

/-! ## Parameters -/

/-- R5's values, and how the widths the types are written with go together. -/
theorem test_parameters :
    Config.endToken = 0xFF ∧ Config.toggleToken = 0xFC ∧ Config.byteWidth = 8 ∧ Config.countMax = 255 ∧
      Config.phaseWidth = 2 ∧ Config.runWidth = 5 ∧ Config.runCap = 31 ∧ Config.eosBit = 5 ∧
      Config.remWidth = 6 ∧ Config.idxWidth = 7 ∧ Config.seqShift = 6 ∧ Config.levels = 32 ∧
      Config.rows = 16 ∧ Config.lutBytes = 16384 := by decide

theorem test_widths_agree :
    Config.byteWidth = Config.phaseWidth + Config.remWidth ∧ Config.remWidth = 1 + Config.runWidth ∧
      Config.eosBit = Config.runWidth ∧ Config.outerWidth = 1 + Config.idxWidth ∧
      Config.rowPairWidth = Config.rowWidth + Config.rowWidth ∧ Config.extentWidth = Config.addrWidth + 1 ∧
      Config.levels = 2 ^ Config.levelWidth ∧ Config.rows = 2 ^ Config.rowWidth ∧
      Config.levels = 2 * Config.rows ∧ Config.countMax + 1 = 2 ^ Config.byteWidth ∧
      Config.runCap + 1 = 2 ^ Config.runWidth ∧ Config.slots = 2 ^ Config.seqShift := by decide

/-! ## Well-formedness -/

theorem test_rep_of_a_token_is_ill_formed :
    Instr.wellFormed (.rep 0xFF 0) = false ∧ Instr.wellFormed (.rep 0xFC 0) = false := by decide

theorem test_lit_of_a_token_is_ill_formed :
    Instr.wellFormed (.lit 0xFF) = false ∧ Instr.wellFormed (.lit 0xFC) = false := by decide

theorem test_pair_of_run_zero_is_ill_formed : Instr.wellFormed (.pair 1 0) = false := by decide

theorem test_last_pair_of_run_zero_is_ill_formed : Instr.wellFormed (.pairLast 1 0) = false := by decide

theorem test_reserved_entry_is_not_nil : Instr.wellFormed (.reservedEntry 0 false) = false := by decide

theorem test_reserved_code_is_no_operation :
    Instr.wellFormed (.reservedOp 0) = false ∧ Instr.wellFormed (.reservedOp 1) = false ∧
      Instr.wellFormed (.reservedOp 4) = false ∧ Instr.wellFormed (.reservedOp 5) = false ∧
      Instr.wellFormed (.reservedOp 6) = false := by decide

/-! ## Decoding, each word written from its encoding -/

/-- R51: `11111111`. -/
theorem test_decode_end : decodeToken .repeatMode [0b11111111, 0x12] = .ok (.endTok, [0x12]) := by rfl

/-- R52: `11111100 vvvvvvvv` in REPEAT. -/
theorem test_decode_tog_to_literal :
    decodeToken .repeatMode [0b11111100, 0b00000101, 0xFF] = .ok (.tog 5 none, [0xFF]) := by rfl

/-- R52: `11111100 vvvvvvvv cccccccc` in LITERAL; R55: the value may be a token's byte. -/
theorem test_decode_tog_to_repeat :
    decodeToken .literalMode [0b11111100, 0b11111100, 0b00000001] = .ok (.tog 0xFC (some 1), []) := by rfl

/-- R53: `vvvvvvvv cccccccc`, the count never tested. -/
theorem test_decode_rep :
    decodeToken .repeatMode [0b10101011, 0b11111111] = .ok (.rep 0xAB 0xFF, []) := by rfl

/-- R54: `vvvvvvvv`. -/
theorem test_decode_lit : decodeToken .literalMode [0b00110011, 0x05] = .ok (.lit 0x33, [0x05]) := by rfl

/-- A token whose bytes end too soon is refused at the missing byte. -/
theorem test_decode_needs_its_bytes :
    decodeToken .repeatMode [0xFC] = .error (.needByte 1) ∧
      decodeToken .literalMode [0xFC, 0x07] = .error (.needByte 2) ∧
      decodeToken .repeatMode [0x07] = .error (.needByte 1) ∧
      decodeToken .repeatMode [] = .error (.needByte 0) := ⟨rfl, rfl, rfl, rfl⟩

/-- R57, R59, R60: `pp e rrrrr`, one byte of each of the four rows. -/
theorem test_decode_entries :
    decodeEntry 0b00000000 = .nil ∧ decodeEntry 0b01000011 = .pair 1 3 ∧
      decodeEntry 0b10100001 = .pairLast 2 1 ∧ decodeEntry 0b11011111 = .pair 3 31 ∧
      decodeEntry 0b11100000 = .reservedEntry 3 true ∧ decodeEntry 0b01000000 = .reservedEntry 1 false := by decide

/-- R62: the operation codes with their operands. -/
theorem test_decode_operations :
    decodeOp { portOf 0b000 with addr := 7, extent := 9 } = .dec 7 9 ∧
      decodeOp { portOf 0b001 with addr := 7, extent := 9 } = .enc 7 9 ∧
      decodeOp { portOf 0b100 with source := 3, destination := 4, mode := 2 } = .schedule 3 4 2 ∧
      decodeOp (portOf 0b101) = .evolve ∧ decodeOp (portOf 0b110) = .frame ∧
      decodeOp (portOf 0b010) = .reservedOp 2 ∧ decodeOp (portOf 0b111) = .reservedOp 7 := by decide

/-- The opcode table's words (log entry 10). -/
theorem test_decode_table_words :
    decodeTableWord 8 0xFF = some .endTok ∧ decodeTableWord 8 0xFC = some (.tog 0 none) ∧
      decodeTableWord 16 0x02AB = some (.rep 0xAB 2) ∧ decodeTableWord 8 0x43 = some (.pair 1 3) ∧
      decodeTableWord 8 0xA1 = some (.pairLast 2 1) ∧ decodeTableWord 8 0xE0 = some (.reservedEntry 3 true) ∧
      decodeTableWord 8 0 = some (.dec 0 0) ∧ decodeTableWord 8 1 = some (.enc 0 0) ∧
      decodeTableWord 8 4 = some (.schedule 0 0 0) ∧ decodeTableWord 8 5 = some .evolve ∧
      decodeTableWord 8 6 = some .frame ∧ decodeTableWord 8 2 = some (.reservedOp 2) := by decide

/-! ## One step of each instruction -/

/-- R67: `[0xFF]` decodes to nothing, CUR at the END. -/
theorem test_end : nextIs (step (decoding .repeatMode 0 1 [0xFF])) fun t =>
    t.c.cstate = .done && t.c.out = [] && t.c.cur = 0 := by decide

/-- R68's worked example. -/
theorem test_tog_to_literal : nextIs (step (decoding .repeatMode 0 3 [0xFC, 0x05, 0xFF])) fun t =>
    t.c.cur = 2 && t.c.mode = .literalMode && t.c.out = [0x05] := by decide

/-- R68: a TOG in LITERAL whose count byte is past the bound has no effect but the record, MODE included. -/
theorem test_tog_is_atomic : nextIs (step (decoding .literalMode 0 2 [0xFC, 0x05, 0x00])) fun t =>
    t.c.cur = 0 && t.c.mode = .literalMode && t.c.out = [] && t.c.cstate = .fault && t.c.cinfo = 2 &&
      t.c.ccause = 3 := by decide

/-- R65's worked example. -/
theorem test_rep : nextIs (step (decoding .repeatMode 0 3 [0xAB, 0x02, 0xFF])) fun t =>
    t.c.out = [0xAB, 0xAB, 0xAB] && t.c.cur = 2 && t.c.mode = .repeatMode := by decide

/-- R70: a count byte of 0x00 is one copy, one of 0xFF is 256, not 0. -/
theorem test_rep_counts : copies 0x00 = 1 ∧ copies 0xFC = 253 ∧ copies 0xFF = 256 := by decide

/-- R69's worked example: `CUR` 4, `IMEM[4] = 0x33`. -/
theorem test_lit : nextIs (step (decoding .literalMode 4 9 [0, 0, 0, 0, 0x33, 0xFF])) fun t =>
    t.c.out = [0x33] && t.c.cur = 5 && t.c.mode = .literalMode := by decide

/-- R96's worked example. -/
theorem test_nil : nextIs (exec .nil (player 0x83 0x00 [] [])) fun t =>
    t.p.outer = 0x00 && t.p.inner = 0x00 && t.p.ph0 = 0 := by decide

/-- R94's worked example. -/
theorem test_pair_counts_down : nextIs (exec (.pair 1 3) (player 0x81 0x43 [] [])) fun t =>
    t.p.outer = 0x01 && t.p.inner = 0x42 && t.p.ph0 = 1 := by decide

/-- R95's worked example. -/
theorem test_pair_loads_the_next : nextIs (exec (.pair 1 1) (player 0x01 0x41 [0x43, 0xA1] [])) fun t =>
    t.p.outer = 0x82 && t.p.inner = 0xA1 && t.p.ph0 = 2 := by decide

/-- R104: P2x1! is a remainder of 33. -/
theorem test_last_pair : nextIs (exec (.pairLast 2 1) (player 0x82 0xA1 [] [])) fun t =>
    t.p.outer = 0x02 && t.p.inner = 0xA0 && t.p.ph0 = 2 := by decide

/-- R60: 0x60 is a remainder of 32. -/
theorem test_reserved_entry_with_marker :
    nextIs (exec (.reservedEntry 1 true) (player 0x01 0x60 [] [])) fun t =>
      t.p.outer = 0x01 && t.p.inner = 0x5F && t.p.ph0 = 1 := by decide

/-- R60, R96: 0x40 returns to idle. -/
theorem test_reserved_entry_without_marker :
    nextIs (exec (.reservedEntry 1 false) (player 0x81 0x40 [] [])) fun t =>
      t.p.outer = 0x00 && t.p.inner = 0x00 && t.p.ph0 = 0 := by decide

/-- R65: DEC opens its run; OUT is emptied. -/
theorem test_dec : nextIs (step (loaded [0xFF] [moveOf (.dec 5 9)])) fun t =>
    t.c.cstate = .busy && t.c.cur = 5 && t.c.bound = 9 && t.c.mode = .repeatMode && t.host = [] := by decide

/-- R81, R86: the lowest token value of the input is reported, the opening writes standing. -/
theorem test_enc_refuses_a_token : nextIs (step (loaded [1, 0xFC, 0xFF] [moveOf (.enc 0 3)])) fun t =>
    t.c.cstate = .fault && t.c.ccause = 4 && t.c.ckind = 3 && t.c.cinfo = 1 && t.c.bound = 3 && t.c.out = [] := by
  decide

/-- R83's worked example: in LITERAL, the run (0x03, 2). -/
theorem test_encoder_run : nextIs (step (encoding .two .literalMode 0 [0x03, 0x03])) fun t =>
    t.c.out = [0xFC, 0x03, 0x01] && t.c.mode = .repeatMode && t.c.cur = 2 := by decide

/-- R92's worked example. -/
theorem test_schedule : nextIs (step (player 0 0 [0x43] [moveOf (.schedule 0 0 0)])) fun t =>
    t.p.row = 0 && t.p.inner = 0x43 && t.p.outer = 0x81 && t.p.ph0 = 1 && t.p.ph1 = 0 && t.p.sel = false := by
  decide

/-- R38: the row is the levels shifted right by one, the source in the upper half. -/
theorem test_schedule_row :
    nextIs (exec (.schedule 7 4 0)
      { State.reset with mem := { imem := [], lut := [(3202, 0x81)], moff := [(0, 2)] } }) fun t =>
        t.p.row = 0x32 && t.p.inner = 0x81 && t.p.outer = 0x02 && t.p.ph0 = 2 := by decide

/-- R97's worked example. -/
theorem test_evolve_counts_down : nextIs (step (player 0x01 0x42 [] [moveOf .evolve])) fun t =>
    t.p.outer = 0x01 && t.p.inner = 0x41 := by decide

/-- R95: past slot 63 there is nothing to load. -/
theorem test_evolve_raises_at_slot_64 : nextIs (step (player 0xBF 0x41 [] [moveOf .evolve])) fun t =>
    t.p.pstate = .fault && t.p.pcause = 4 && t.p.pkind = 2 && t.p.pinfo = 64 && t.p.outer = 0xBF := by decide

/-- R99's worked example. -/
theorem test_frame :
    nextIs (step { State.reset with p := { UnitP.atReset with ph0 := 1 }, host := [moveOf .frame] }) fun t =>
      t.p.hist = [1] && t.p.sel = true && t.p.ph0 = 1 := by decide

/-- R62: a reserved code changes nothing. -/
theorem test_reserved_op : nextIs (step { State.reset with host := [.operation (portOf 3)] }) fun t =>
    decide (t = State.reset) := by decide

/-- A table word placed for the next step (log entry 10): END, an entry, an operation. -/
theorem test_fetched_words :
    nextIs (step (State.reset.withFetchWord 8 0xFF)) (fun t => t.c.cstate = .done) ∧
      nextIs (step (State.reset.withFetchWord 8 0x43)) (fun t => t.p.inner = 0x42 && t.p.outer = 0x01) ∧
      nextIs (step (State.reset.withFetchWord 8 6)) (fun t => t.p.hist = [0]) := by decide

/-! ## Witnesses: states and operands that meet a statement's hypotheses -/

theorem witness_DecodeOfEncode :
    Instr.wellFormed (.tog 0xFC (some 0xFF)) = true ∧ Instr.readUnder (.tog 0xFC (some 0xFF)) .literalMode = true ∧
      tokenBytes (.tog 0xFC (some 0xFF)) ≠ [] := by decide

theorem witness_DecodedToken : decodeToken .literalMode [0xFC, 0x50, 0x01] = .ok (.tog 0x50 (some 1), []) := by rfl

theorem witness_OperationCodes :
    (portOf 0).op = 0 ∧ (portOf 1).op = 1 ∧ (portOf 4).op = 4 ∧ (portOf 5).op = 5 ∧ (portOf 6).op = 6 ∧
      ((portOf 7).op = 2 ∨ (portOf 7).op = 3 ∨ (portOf 7).op = 7) := by decide

theorem witness_StepRunsTheToken :
    let s := decoding .literalMode 1 4 [0, 0xFC, 0x50, 0x01]
    s.c.cstate = .busy ∧ s.c.encSrc = none ∧ Instr.wellFormed (.tog 0x50 (some 1)) = true ∧
      Instr.readUnder (.tog 0x50 (some 1)) s.c.mode = true ∧ tokenBytes (.tog 0x50 (some 1)) ≠ [] ∧
      ∀ k, k < (tokenBytes (.tog 0x50 (some 1))).length →
        s.c.cur + k < limit s ∧
          Memory.read s.mem.imem (s.c.cur + k) = (tokenBytes (.tog 0x50 (some 1)))[k]? := by decide

theorem witness_StepRunsTheHostsOperation :
    let s := loaded [] [.operation (portOf 6)]
    s.c.cstate ≠ .busy ∧ s.host = .operation (portOf 6) :: [] := by decide

theorem witness_WaitingAndReading :
    State.reset.c.cstate ≠ .busy ∧ State.reset.host = [] ∧
      (loaded [] [.read .cur]).c.cstate ≠ .busy ∧ (loaded [] [.read .cur]).host = .read .cur :: [] := by decide

theorem witness_ResetSetsEveryRegister :
    let s := { decoding .literalMode 1 2 [] with
      c := { UnitC.atReset with cstate := .fault, ccause := 3, cinfo := 2 }, host := [.reset] }
    s.c.cstate ≠ .busy ∧ s.host = .reset :: [] := by decide

/-- The last address of MOFF, and the first beyond it. -/
theorem witness_HostStore :
    let s := loaded [] [.write .moff 255 7]
    let s' := loaded [] [.write .moff 256 7]
    s.c.cstate ≠ .busy ∧ s.host = .write .moff 255 7 :: [] ∧ 255 < spaceSize s.cfg .moff ∧
      s'.c.cstate ≠ .busy ∧ s'.host = .write .moff 256 7 :: [] ∧ spaceSize s'.cfg .moff ≤ 256 := by decide

theorem witness_DecodeStepRaises_at_the_token :
    let s := decoding .repeatMode 2 2 [1, 2, 3]
    s.c.cstate = .busy ∧ s.c.encSrc = none ∧ limit s ≤ s.c.cur := by decide

theorem witness_DecodeStepRaises_at_the_second_byte :
    let s := decoding .repeatMode 1 2 [1, 0x22, 3]
    s.c.cstate = .busy ∧ s.c.encSrc = none ∧ s.c.cur < limit s ∧ Memory.read s.mem.imem s.c.cur = some 0x22 ∧
      (0x22 : Byte) ≠ 0xFF ∧ ((0x22 : Byte) = 0xFC ∨ s.c.mode = .repeatMode) ∧ limit s ≤ s.c.cur + 1 := by decide

theorem witness_DecodeStepRaises_at_the_third_byte :
    let s := decoding .literalMode 0 2 [0xFC, 0x22, 3]
    s.c.cstate = .busy ∧ s.c.encSrc = none ∧ s.c.cur + 1 < limit s ∧
      Memory.read s.mem.imem s.c.cur = some 0xFC ∧ Memory.read s.mem.imem (s.c.cur + 1) = some 0x22 ∧
      s.c.mode = .literalMode ∧ limit s ≤ s.c.cur + 2 := by decide

/-- Both units in fault, a DEC and then a FRAME met. -/
def faulted (i : Instr) : State :=
  { State.reset with
    c := { UnitC.atReset with cstate := .fault, ccause := 3, cinfo := 4 }
    p := { UnitP.atReset with pstate := .fault, pcause := 4, pkind := 1, pinfo := 9 }
    host := [moveOf i] }

theorem witness_FaultedUnit :
    ∃ t, step (faulted (.dec 0 9)) = .next t ∧ (∀ later, (faulted (.dec 0 9)).host ≠ .reset :: later) ∧
      (faulted (.dec 0 9)).c.cstate = .fault ∧ (faulted (.dec 0 9)).p.pstate = .fault :=
  ⟨{ faulted (.dec 0 9) with host := [] }, rfl, fun _ h => (nomatch h), rfl, rfl⟩

theorem witness_Rep :
    (let s := decoding .repeatMode 0 2 [1, 2]; s.c.cur + 1 < limit s) ∧
      (let s := decoding .repeatMode 1 2 [1, 2]; limit s ≤ s.c.cur + 1) := by decide

theorem witness_Tog :
    (let s := decoding .repeatMode 0 2 [0xFC, 2]; s.c.mode = .repeatMode ∧ s.c.cur + 1 < limit s) ∧
      (let s := decoding .literalMode 0 3 [0xFC, 2, 3]; s.c.mode = .literalMode ∧ s.c.cur + 2 < limit s) ∧
      (let s := decoding .literalMode 0 1 [0xFC]; limit s ≤ s.c.cur + 1) ∧
      (let s := decoding .literalMode 0 2 [0xFC, 2]
       s.c.mode = .literalMode ∧ s.c.cur + 1 < limit s ∧ limit s ≤ s.c.cur + 2) := by decide

/-- Accepting in C_IDLE and in C_DONE. -/
theorem witness_DecOpens :
    accepting State.reset ∧
      accepting { State.reset with c := { UnitC.atReset with cstate := .done } } := by decide

theorem witness_CodecIgnores :
    (let s := decoding .repeatMode 0 1 [1]; s.c.cstate = .busy ∨ s.c.cstate = .fault) ∧
      ((faulted .frame).c.cstate = .busy ∨ (faulted .frame).c.cstate = .fault) := by decide

theorem witness_DecodeStepMoves :
    let s := decoding .literalMode 0 1 [0x33]
    s.c.cstate = .busy ∧ s.c.encSrc = none ∧ nextIs (step s) (fun t => t.c.cstate = .busy) = true := by decide

/-- Two machines alike in unit C and in IMEM from CUR on, unlike in unit P and in IMEM below CUR. -/
theorem witness_DecodeStepReadsOnly :
    let s := decoding .literalMode 1 2 [0x11, 0x33]
    let s' := { decoding .literalMode 1 2 [0x22, 0x33] with p := { UnitP.atReset with outer := 1 } }
    s.c.cstate = .busy ∧ s.c.encSrc = none ∧ s'.c = s.c ∧ limit s' = limit s ∧
      (∀ a, s.c.cur ≤ a → a < limit s → Memory.read s'.mem.imem a = Memory.read s.mem.imem a) ∧
      nextIs (step s) (fun _ => true) = true := by decide

/-- A stream that ends, and one whose END lies at the bound. -/
theorem witness_DecRun :
    (let s := loaded [0xAB, 0x02, 0xFF] [moveOf (.dec 0 3)]
     accepting s ∧ s.host = moveOf (.dec 0 3) :: [] ∧
       Memory.readRange s.mem.imem 0 (min 3 s.cfg.imemSize - 0) = some [0xAB, 0x02, 0xFF]) ∧
      (let s := loaded [0xAB, 0x02, 0xFF] [moveOf (.dec 0 2)]
       accepting s ∧ s.host = moveOf (.dec 0 2) :: [] ∧
         Memory.readRange s.mem.imem 0 (min 2 s.cfg.imemSize - 0) = some [0xAB, 0x02]) := by decide

theorem witness_EncOpens :
    accepting (loaded [1, 2] []) ∧ cleanBetween (loaded [1, 2] []) 0 2 := by
  refine ⟨by decide, fun j _ hj => ?_⟩
  match j, hj with
  | 0, _ => exact ⟨by decide, 1, by decide⟩
  | 1, _ => exact ⟨by decide, 2, by decide⟩

/-- A token value at address 1, and an input that runs over the end of the buffer. -/
theorem witness_EncRaises :
    (let s := loaded [1, 0xFC] []
     accepting s ∧ 0 ≤ 1 ∧ 1 < 0 + 3 ∧ cleanBetween s 0 1 ∧ 1 < s.cfg.imemSize ∧
       (Memory.read s.mem.imem 1 = some 0xFF ∨ Memory.read s.mem.imem 1 = some 0xFC)) ∧
      (let s := { loaded [1] [] with cfg := { Config.atReset with imemSize := 1 } }
       accepting s ∧ 0 ≤ 1 ∧ 1 < 0 + 3 ∧ cleanBetween s 0 1 ∧ s.cfg.imemSize ≤ 1) := by
  refine ⟨⟨by decide, by decide, by decide, fun j _ hj => ?_, by decide, by decide⟩,
    ⟨by decide, by decide, by decide, fun j _ hj => ?_, by decide⟩⟩
  · match j, hj with
    | 0, _ => exact ⟨by decide, 1, by decide⟩
  · match j, hj with
    | 0, _ => exact ⟨by decide, 1, by decide⟩

theorem witness_EncoderEnds :
    let s := encoding .two .literalMode 1 [7]
    s.c.cstate = .busy ∧ s.c.encSrc = some 0 ∧ s.c.cur = s.c.bound := by decide

/-- A run that ends the input, and one that another value follows. -/
theorem witness_EncoderRun :
    (let s := encoding .two .literalMode 1 [5, 7, 7]
     s.c.cstate = .busy ∧ s.c.encSrc = some 0 ∧ 2 ≤ 2 ∧ s.c.cur + 2 ≤ s.c.bound ∧
       (∀ k, k < 2 → Memory.read s.mem.imem (s.c.cur + k) = some 7) ∧
       (s.c.cur + 2 = s.c.bound ∨ Memory.read s.mem.imem (s.c.cur + 2) ≠ some 7)) ∧
      (let s := encoding .two .repeatMode 0 [7, 7, 5]
       s.c.cstate = .busy ∧ s.c.encSrc = some 0 ∧ 2 ≤ 2 ∧ s.c.cur + 2 ≤ s.c.bound ∧
         (∀ k, k < 2 → Memory.read s.mem.imem (s.c.cur + k) = some 7) ∧
         (s.c.cur + 2 = s.c.bound ∨ Memory.read s.mem.imem (s.c.cur + 2) ≠ some 7)) := by decide

/-- A stretch as long as the threshold 2, and a shorter one. -/
theorem witness_EncoderStretch :
    (let s := encoding .two .repeatMode 0 [1, 2, 3, 3]
     s.c.cstate = .busy ∧ s.c.encSrc = some 0 ∧ s.c.mode = .repeatMode ∧ ([1, 2] : List Byte) ≠ [] ∧
       s.c.cur + 2 ≤ s.c.bound ∧ Memory.readRange s.mem.imem s.c.cur 2 = some [1, 2] ∧
       (∀ j, s.c.cur ≤ j → j < s.c.cur + 2 → single s.mem.imem 0 s.c.bound j = true) ∧
       (s.c.cur + 2 = s.c.bound ∨ single s.mem.imem 0 s.c.bound (s.c.cur + 2) = false) ∧
       s.cfg.threshold.toNat ≤ 2) ∧
      (let s := encoding .two .repeatMode 0 [5]
       s.c.cstate = .busy ∧ s.c.encSrc = some 0 ∧ s.c.mode = .repeatMode ∧ ([5] : List Byte) ≠ [] ∧
         s.c.cur + 1 ≤ s.c.bound ∧ Memory.readRange s.mem.imem s.c.cur 1 = some [5] ∧
         (∀ j, s.c.cur ≤ j → j < s.c.cur + 1 → single s.mem.imem 0 s.c.bound j = true) ∧
         (s.c.cur + 1 = s.c.bound ∨ single s.mem.imem 0 s.c.bound (s.c.cur + 1) = false) ∧
         1 < s.cfg.threshold.toNat) := by decide

/-- R83's corner cases at the clauses' edges: 256, 257, 512 and 513 copies. -/
theorem witness_Chunks :
    chunks 9 256 = [9, 0xFF] ∧ chunks 9 257 = [9, 0xFF, 9, 0] ∧ chunks 9 512 = [9, 0xFF, 9, 0xFF] ∧
      chunks 9 513 = [9, 0xFF, 9, 0xFF, 9, 0] := by decide

theorem witness_EncRun :
    let s := loaded [0xAB, 0xAB, 0xAB] [moveOf (.enc 0 3)]
    accepting s ∧ s.host = moveOf (.enc 0 3) :: [] ∧ 0 + 3 ≤ s.cfg.imemSize ∧
      Memory.readRange s.mem.imem 0 3 = some [0xAB, 0xAB, 0xAB] ∧ cleanInput [0xAB, 0xAB, 0xAB] = true := by decide

theorem witness_RoundTrip :
    let x : List Byte := [1, 2, 3, 3]
    let s := loaded (encodeInput .two x) [moveOf (.dec 0 7)]
    accepting s ∧ s.host = moveOf (.dec 0 7) :: [] ∧ cleanInput x = true ∧
      0 + (encodeInput .two x).length ≤ 7 ∧ 0 + (encodeInput .two x).length ≤ s.cfg.imemSize ∧
      Memory.readRange s.mem.imem 0 (encodeInput .two x).length = some (encodeInput .two x) := by decide

theorem witness_ShortStream : cleanInput [1, 2, 3, 3] = true ∧ cleanInput [] = true := by decide

/-- Slot 63 with an entry of remainder above 1. -/
theorem witness_ScheduleLoads :
    let s : State := { State.reset with mem := { imem := [], lut := [(3263, 0x43)], moff := [(255, 63)] } }
    s.p.pstate = .ok ∧ s.p.outer = 0 ∧ (255 : Byte).toNat < s.cfg.numModes ∧
      Memory.read s.mem.moff (255 : Byte).toNat = some 63 ∧ (63 : Byte).toNat < 64 ∧
      Memory.read s.mem.lut (((7 : BitVec 5).toNat / 2 * 16 + (4 : BitVec 5).toNat / 2) * 64 + (63 : Byte).toNat) =
        some 0x43 := by decide

theorem witness_ScheduleDropped :
    (faulted .frame).p.pstate = .fault ∧ (player 0x01 0x42 [] []).p.outer ≠ 0 := by decide

/-- The first mode that is not recognised, and an offset of 64. -/
theorem witness_ScheduleRaises :
    (let s : State := { State.reset with cfg := { Config.atReset with numModes := 7 } }
     s.p.pstate = .ok ∧ s.p.outer = 0 ∧ s.cfg.numModes ≤ (7 : Byte).toNat) ∧
      (let s : State :=
        { State.reset with
          cfg := { Config.atReset with numModes := 7 }, mem := { imem := [], lut := [], moff := [(6, 64)] } }
       s.p.pstate = .ok ∧ s.p.outer = 0 ∧ (6 : Byte).toNat < s.cfg.numModes ∧
         Memory.read s.mem.moff (6 : Byte).toNat = some 64 ∧ 64 ≤ (64 : Byte).toNat) := by decide

theorem witness_ScheduleIgnoresOddLevels :
    (6 : BitVec 5).toNat / 2 = (7 : BitVec 5).toNat / 2 ∧ (30 : BitVec 5).toNat / 2 = (31 : BitVec 5).toNat / 2 := by
  decide

/-- An offset of 0 with a first remainder of 1 and of 2. -/
theorem witness_OffsetZero :
    (let s : State := { State.reset with mem := { imem := [], lut := [(0, 0x41)], moff := [(0, 0)] } }
     s.p.pstate = .ok ∧ s.p.outer = 0 ∧ (0 : Byte).toNat < s.cfg.numModes ∧
       Memory.read s.mem.moff (0 : Byte).toNat = some 0 ∧
       Memory.read s.mem.lut (slotIndex (rowOf 0 0) 0) = some 0x41 ∧ (0x41 : Byte).toNat % 64 ≤ 1) ∧
      (let s : State := { State.reset with mem := { imem := [], lut := [(0, 0x42)], moff := [(0, 0)] } }
       s.p.pstate = .ok ∧ s.p.outer = 0 ∧ (0 : Byte).toNat < s.cfg.numModes ∧
         Memory.read s.mem.moff (0 : Byte).toNat = some 0 ∧
         Memory.read s.mem.lut (slotIndex (rowOf 0 0) 0) = some 0x42 ∧ 1 < (0x42 : Byte).toNat % 64) := by decide

theorem witness_EvolveIdleOrFaulted :
    ((faulted .evolve).p.pstate = .fault ∨ (faulted .evolve).p.outer = 0) ∧
      (State.reset.p.pstate = .fault ∨ State.reset.p.outer = 0) := by decide

/-- A remainder of 2 with DB set and with DB clear. -/
theorem witness_EvolveCounts :
    (active (player 0x81 0x42 [] []) ∧ 1 < (player 0x81 0x42 [] []).p.inner.toNat % 64) ∧
      (active (player 0x01 0x42 [] []) ∧ 1 < (player 0x01 0x42 [] []).p.inner.toNat % 64) := by decide

/-- The last slot that can be loaded, and the first that cannot. -/
theorem witness_EvolveLoads :
    (let s : State := { player 0x3E 0x41 [] [] with mem := { imem := [], lut := [(63, 0xA1)], moff := [] } }
     active s ∧ s.p.inner.toNat % 64 = 1 ∧ s.p.outer.toNat % 128 + 1 < 64 ∧
       Memory.read s.mem.lut (s.p.row.toNat * 64 + (s.p.outer.toNat % 128 + 1)) = some 0xA1) ∧
      (let s := player 0x3F 0x41 [] []
       active s ∧ s.p.inner.toNat % 64 = 1 ∧ 64 ≤ s.p.outer.toNat % 128 + 1) := by decide

theorem witness_NilAndEmpty :
    active (player 0x83 0x00 [] []) ∧ (player 0x83 0x00 [] []).p.inner.toNat % 64 = 0 := by decide

theorem witness_Pair :
    (active (player 0x81 0x42 [] []) ∧ (2 : BitVec 5) ≠ 0 ∧ (2 : BitVec 5) ≠ 1) ∧
      (let s := player 0x01 0x41 [0x43, 0xA1] []
       active s ∧ (1 : BitVec 5) ≠ 0 ∧ s.p.outer.toNat % 128 + 1 < 64 ∧
         Memory.read s.mem.lut (s.p.row.toNat * 64 + (s.p.outer.toNat % 128 + 1)) = some 0xA1) ∧
      (active (player 0x3F 0x41 [] []) ∧ 64 ≤ (player 0x3F 0x41 [] []).p.outer.toNat % 128 + 1) := by decide

theorem witness_LastPair : active (player 0x82 0xA1 [] []) ∧ (1 : BitVec 5) ≠ 0 := by decide

theorem witness_ReservedEntry : active (player 0x81 0x40 [] []) := by decide

theorem witness_Frame : State.reset.p.pstate = .ok ∧ (faulted .frame).p.pstate = .fault := by decide

/-- The Summary of 95_test_vectors.md S4, packed from slot 1 of row 0 and followed by an empty slot. -/
def s4 (steps : Nat) : State :=
  player 0 0 [0x43, 0xA1, 0x00] (moveOf (.schedule 0 0 0) :: (playSteps steps ++ []))

theorem witness_Playback :
    (s4 4).c.cstate ≠ .busy ∧ (s4 4).p.pstate = .ok ∧ (s4 4).p.outer = 0 ∧
      conformantRow (s4 4) 0 0 0 1 [(1, 3), (2, 1)] ∧
      (s4 4).host = moveOf (.schedule 0 0 0) :: (playSteps (totalFrames [(1, 3), (2, 1)]) ++ []) := by decide

theorem witness_PlaybackHolds :
    (s4 37).c.cstate ≠ .busy ∧ (s4 37).p.pstate = .ok ∧ (s4 37).p.outer = 0 ∧
      conformantRow (s4 37) 0 0 0 1 [(1, 3), (2, 1)] ∧
      List.getLast? ([(1, 3), (2, 1)] : Summary) = some (2, 1) ∧
      (1 : Byte).toNat + ([(1, 3), (2, 1)] : Summary).length < 64 ∧
      Memory.read (s4 37).mem.lut
        (slotIndex (rowOf 0 0) ((1 : Byte).toNat + ([(1, 3), (2, 1)] : Summary).length)) = some 0 ∧
      (s4 37).host = moveOf (.schedule 0 0 0) :: (playSteps (totalFrames [(1, 3), (2, 1)] + 33) ++ []) := by decide

theorem witness_PlaybackTerminates :
    ∃ s : State, ∃ entries, s.c.cstate ≠ .busy ∧ s.p.outer ≠ 0 ∧
      Memory.readRange s.mem.lut (slotIndex s.p.row 0) 64 = some entries ∧
      s.host = List.replicate (64 * 64) (moveOf .evolve) ++ [] :=
  ⟨{ player 0x01 0x7F [] (List.replicate (64 * 64) (moveOf .evolve) ++ []) with
      mem := { imem := [], lut := (List.range 64).map fun k => (k, 0xFF), moff := [] } },
    List.replicate 64 0xFF, by decide, by decide, by decide, rfl⟩

/-! ### A table that meets the contract -/

/-- A table with every address listed: reading it is reading the function it lists. -/
theorem read_listed (f : Nat → Byte) (n a start : Nat) (h1 : start ≤ a) (h2 : a < start + n) :
    Memory.read ((List.range' start n).map fun k => (k, f k)) a = some (f a) := by
  induction n generalizing start with
  | zero => omega
  | succ n ih =>
    simp only [List.range'_succ, List.map_cons, Memory.read]
    by_cases h : start = a
    · simp [h]
    · simp only [h, if_false]
      exact ih (start + 1) (by omega) (by omega)

/-- The S4 entries at slots 1 and 2 of row 0, 0x00 everywhere else. -/
def contractByte (a : Nat) : Byte := if a = 1 then 0x43 else if a = 2 then 0xA1 else 0

/-- Mode 0 starts at slot 1 and is three slots long, the idle mode 1 at slot 4. -/
def contractState : State :=
  { State.reset with
    mem := { imem := [], lut := (List.range' 0 16384).map fun k => (k, contractByte k), moff := [(0, 1), (1, 4)] } }

/-- Mode 0's Summaries: one of length 2 for levels 0 to 0, and its longest, of length 3, for a transition that no row
holds. -/
def contractSource : TableSource :=
  { summary := fun source destination m =>
      if m = 0 ∧ source = 0 ∧ destination = 0 then [(1, 3), (2, 1)]
      else if m = 0 ∧ source = 1 ∧ destination = 1 then [(1, 3), (2, 1), (1, 1)] else []
    transition := fun row => (row.extractLsb' 4 4 ++ 0#1, row.extractLsb' 0 4 ++ 0#1) }

/-- Row 0 holds the transition 0 to 0, every row one without a bit 0. -/
theorem contract_held (row : RowPair) (m : Byte) :
    contractSource.held row m = if row = 0 ∧ m = 0 then [(1, 3), (2, 1)] else [] := by
  have h0 : (row.extractLsb' 4 4 ++ 0#1 = (0 : Level) ∧ row.extractLsb' 0 4 ++ 0#1 = (0 : Level)) ↔ row = 0 := by
    revert row; decide
  have h1 : row.extractLsb' 4 4 ++ 0#1 ≠ (1 : Level) := by revert row; decide
  simp only [TableSource.held, contractSource]
  by_cases hm : m = 0
  · by_cases hr : row = 0
    · rw [if_pos ⟨hm, h0.2 hr⟩, if_pos ⟨hr, hm⟩]
    · rw [if_neg fun h => hr (h0.1 h.2), if_neg fun h => h1 h.2.1, if_neg fun h => hr h.1]
  · rw [if_neg fun h => hm h.1, if_neg fun h => hm h.1, if_neg fun h => hm h.2]

theorem slotIndex_row (row : RowPair) (k : Nat) : slotIndex row k = row.toNat * 64 + k := by
  have h : rowS row * 16 + rowD row = row.toNat := by revert row; decide
  simp only [slotIndex, flatIndex, Config.rows_eq, Config.slots_eq]
  rw [h]

theorem read_contract {row : RowPair} {k : Nat} (h : k < 64) :
    Memory.read contractState.mem.lut (slotIndex row k) = some (contractByte (row.toNat * 64 + k)) := by
  rw [slotIndex_row]
  exact read_listed contractByte 16384 _ 0 (Nat.zero_le _) (by have := row.isLt; omega)

theorem contractByte_other {row : RowPair} {k : Nat} (h : row ≠ 0) : contractByte (row.toNat * 64 + k) = 0 := by
  have : row.toNat ≠ 0 := fun e => h (BitVec.eq_of_toNat_eq e)
  simp only [contractByte]
  rw [if_neg (by omega), if_neg (by omega)]

/-- The two modes' offsets: mode 0's is 1 and mode 1's is 4. -/
theorem read_offset {m o : Byte} (hm : m = 0 ∨ m = 1) (h : Memory.read contractState.mem.moff m.toNat = some o) :
    (m = 0 ∧ o = 1) ∨ (m = 1 ∧ o = 4) := by
  rcases hm with rfl | rfl
  · exact .inl ⟨rfl, (Option.some.inj h).symm⟩
  · exact .inr ⟨rfl, (Option.some.inj h).symm⟩

theorem contract_length (m : Byte) (source destination : Level) :
    (contractSource.summary source destination m).length ≤ 3 := by
  dsimp only [contractSource]
  split
  · decide
  split <;> decide

theorem contract_met : TableContract contractState 1 [(0, 3)] [1] contractSource := by
  refine ⟨?_, ?_, ?_, ?_, ?_, ?_, ?_⟩
  · decide
  · unfold contractSource
    decide
  · refine ⟨by decide, fun m hm => ?_⟩
    rw [List.mem_singleton] at hm
    subst hm
    decide
  · intro x hx
    rw [List.mem_singleton] at hx
    subst hx
    exact ⟨fun source destination => contract_length _ source destination, 1, 1, by decide⟩
  · intro m hm row o ho
    rw [contract_held]
    have hm : m = 0 ∨ m = 1 := by simpa using hm
    rcases read_offset hm ho with ⟨rfl, rfl⟩ | ⟨rfl, rfl⟩
    · by_cases hr : row = 0
      · subst hr
        rw [if_pos ⟨rfl, rfl⟩]
        refine ⟨by decide, by decide, ?_⟩
        have h1 := read_contract (row := 0) (k := 1) (by decide)
        have h2 := read_contract (row := 0) (k := 2) (by decide)
        simp only [slotIndex_row] at h1 h2 ⊢
        change Memory.readRange contractState.mem.lut ((0 : RowPair).toNat * 64 + 1) 2 = _
        simp only [Memory.readRange, h1, h2]
        decide
      · rw [if_neg fun h => hr h.1]
        exact ⟨by decide, by simp, rfl⟩
    · rw [if_neg fun h => absurd h.2 (by decide)]
      exact ⟨by decide, by simp, rfl⟩
  · intro row k hk h
    rw [read_contract hk]
    by_cases hr : row = 0
    · subst hr
      have := h 0 (by decide) 1 rfl
      rw [contract_held, if_pos ⟨rfl, rfl⟩] at this
      have h1 : (1 : Byte).toNat = 1 := rfl
      have h2 : List.length ([(1, 3), (2, 1)] : Summary) = 2 := rfl
      rw [h1, h2] at this
      have h0 : (0 : RowPair).toNat = 0 := rfl
      simp only [contractByte, h0]
      rw [if_neg (by omega), if_neg (by omega)]
    · rw [contractByte_other hr]
  · intro row k b hk hb h0
    rw [read_contract hk] at hb
    have hb := Option.some.inj hb
    subst hb
    revert h0
    unfold contractByte
    split
    · intro h; exact absurd h (by decide)
    split
    · intro h; exact absurd h (by decide)
    · intro _; rfl

theorem contract_built : BuiltTable contractState [(0, 3)] [1] contractSource := by
  refine ⟨contract_met, fun m hm source destination o ho => ?_⟩
  have hm : m = 0 ∨ m = 1 := by simpa using hm
  have hl := contract_length m source destination
  have h1 : (1 : Byte).toNat = 1 := rfl
  have h4 : (4 : Byte).toNat = 4 := rfl
  rw [Config.slots_eq]
  rcases read_offset hm ho with ⟨-, rfl⟩ | ⟨-, rfl⟩
  · omega
  · omega

/-- A table as the builder makes it, a listed mode with a Summary in the row, and the idle mode. -/
theorem witness_TableContract :
    (0 : Byte) ∈ List.map Prod.fst [((0 : Byte), 3)] ++ [(1 : Byte)] ∧
      (1 : Byte) ∈ List.map Prod.fst [((0 : Byte), 3)] ++ [(1 : Byte)] ∧
      TableContract contractState 1 [(0, 3)] [1] contractSource ∧
      contractSource.held (rowOf 0 0) 0 ≠ [] ∧ BuiltTable contractState [(0, 3)] [1] contractSource ∧
      contractState.p.pstate = .ok ∧ contractState.p.outer = 0 :=
  ⟨by decide, by decide, contract_met, by decide, contract_built, rfl, rfl⟩

/-! ### Images and the whole machine -/

/-- A record of zeros for `n` modes. -/
def zeroRecord (n : Nat) : LutRecord :=
  { lower := 0xFFFFFFF6, upper := 0x00000005, offsets := List.replicate n 0
    table := List.replicate Config.lutBytes 0 }

theorem witness_RecordReadsBack : (zeroRecord 7).wf 7 :=
  ⟨List.length_replicate, List.length_replicate⟩

theorem witness_LoadedRecord :
    let s : State := { State.reset with host := loadRecord (zeroRecord 256) ++ [] }
    s.c.cstate ≠ .busy ∧ (zeroRecord 256).wf s.cfg.numModes ∧ s.host = loadRecord (zeroRecord 256) ++ [] :=
  ⟨fun h => (nomatch h), ⟨List.length_replicate, List.length_replicate⟩, rfl⟩

/-- The hypothesis of the statements about every instruction: `exec` answers a next state, of each unit. -/
theorem witness_ExecNext :
    nextIs (exec (.lit 5) (decoding .literalMode 0 2 [5, 0xFF])) (fun _ => true) ∧
      unitOf (.lit 5) = some .codec ∧
      nextIs (exec (.schedule 0 0 0) (player 0 0 [0x43] [])) (fun t => decide (t.p.outer ≠ 0)) ∧
      unitOf (.schedule 0 0 0) = some .player ∧
      nextIs (exec (.lit 5) (decoding .literalMode 0 2 [5, 0xFF])) fun a =>
        nextIs (exec .frame a) (fun _ => true) := by decide

/-- FRAME is the writer of SEL, SCHEDULE of ROW. -/
theorem witness_RowAndSel :
    nextIs (exec .frame State.reset) (fun t => t.p.sel ≠ State.reset.p.sel) ∧
      nextIs (exec (.schedule 7 4 0)
        { State.reset with mem := { imem := [], lut := [(3202, 0x81)], moff := [(0, 2)] } })
        (fun t => t.p.row ≠ State.reset.p.row) := by decide

/-- The inactive slot under both values of SEL. -/
theorem witness_InactiveSlot :
    nextIs (exec .evolve (player 0x81 0x42 [] [])) (fun _ => true) ∧ (player 0x81 0x42 [] []).p.sel = false ∧
      nextIs (exec .evolve
        { State.reset with p := { UnitP.atReset with outer := 0x81, inner := 0x42, sel := true } })
        (fun t => t.p.ph1 = 1 && t.p.ph0 = 0) := by decide

theorem witness_StepKeepsTheInvariant : (faulted .frame).inv ∧ nextIs (step (faulted .frame)) (fun _ => true) := by
  refine ⟨⟨by decide, by decide, by decide, by decide, by decide, ?_, by decide, by decide⟩, by decide⟩
  exact ⟨by decide, by decide, fun _ h => nomatch h⟩

end Sys2Proof.Machine.Test
end

section
/-! SUPPORT. The state after reset (R27): its registers and streams, and its empty memories. -/

namespace Sys2Proof.Machine

@[simp] theorem State.reset_c : State.reset.c = UnitC.atReset := rfl
@[simp] theorem State.reset_p : State.reset.p = UnitP.atReset := rfl

/-- R125: the host has loaded nothing yet, into none of the three memories. -/
@[simp] theorem State.reset_mem_get (space : Space) : State.reset.mem.get space = [] := by
  cases space with
  | imem => rfl
  | lut => rfl
  | moff => rfl

/-- Settles O9: the registers are the tables' by definition, and an empty memory reads as no value. -/
theorem resetValuesAreTheTables : Obligations.ResetValuesAreTheTables := by
  refine ⟨State.reset_c, State.reset_p, fun space a => ?_⟩
  rw [State.reset_mem_get, Memory.read_nil]

end Sys2Proof.Machine
end

section
/-! SUPPORT. The operation port's decoder, code by code (R62), and the meaning of a reserved code. -/

namespace Sys2Proof

theorem decodeOp_dec {p : OpPort} (h : p.op = 0) : decodeOp p = .dec p.addr p.extent := by
  simp [decodeOp, h]

theorem decodeOp_enc {p : OpPort} (h : p.op = 1) : decodeOp p = .enc p.addr p.extent := by
  simp [decodeOp, h]

theorem decodeOp_schedule {p : OpPort} (h : p.op = 4) :
    decodeOp p = .schedule p.source p.destination p.mode := by
  simp [decodeOp, h]

theorem decodeOp_evolve {p : OpPort} (h : p.op = 5) : decodeOp p = .evolve := by
  simp [decodeOp, h]

theorem decodeOp_frame {p : OpPort} (h : p.op = 6) : decodeOp p = .frame := by
  simp [decodeOp, h]

theorem decodeOp_reservedOp {p : OpPort} (h : p.op = 2 ∨ p.op = 3 ∨ p.op = 7) :
    decodeOp p = .reservedOp p.op := by
  rcases h with h | h | h <;> simp [decodeOp, h]

/-- R62: a 3-bit code is one of the five operations' or one of the three reserved ones. -/
theorem opCode_cases (op : BitVec 3) :
    op = 0 ∨ op = 1 ∨ op = 4 ∨ op = 5 ∨ op = 6 ∨ op = 2 ∨ op = 3 ∨ op = 7 := by
  revert op; decide

/-- The decoder never answers a reserved code that is an operation's. -/
theorem decodeOp_wellFormed (p : OpPort) : (decodeOp p).wellFormed = true := by
  rcases opCode_cases p.op with h | h | h | h | h | h
  · rw [decodeOp_dec h]; rfl
  · rw [decodeOp_enc h]; rfl
  · rw [decodeOp_schedule h]; rfl
  · rw [decodeOp_evolve h]; rfl
  · rw [decodeOp_frame h]; rfl
  · rw [decodeOp_reservedOp h]
    simpa [Instr.wellFormed, or_assoc] using h

namespace Machine

theorem exec_reservedOp (code : BitVec 3) (s : State) : exec (.reservedOp code) s = .next s := rfl

/-- Settles O4: the decoder's equation at each code, and that a reserved code's meaning is no change. -/
theorem operationCodesAreTheTables : Obligations.OperationCodesAreTheTables := by
  intro p
  have hreserved (h : p.op = 2 ∨ p.op = 3 ∨ p.op = 7) :
      decodeOp p = .reservedOp p.op ∧ ∀ s, exec (decodeOp p) s = .next s :=
    ⟨decodeOp_reservedOp h, fun s => by rw [decodeOp_reservedOp h, exec_reservedOp]⟩
  exact ⟨decodeOp_dec, decodeOp_enc, decodeOp_schedule, decodeOp_evolve, decodeOp_frame, hreserved,
    decodeOp_wellFormed p⟩

end Machine

end Sys2Proof
end

section
/-! SUPPORT. The words SCHEDULE computes, as numbers: the row of a transition and its slots' addresses (R38, R63), and
OUTER as it is written (R18, R92). -/

namespace Sys2Proof.Machine

/-- Row number `x` above row number `y`, as numbers. -/
theorem rowNumber_append_toNat (x y : RowNumber) :
    (x ++ y : BitVec (4 + 4)).toNat = x.toNat * 16 + y.toNat := by
  rw [BitVec.toNat_append, ← Nat.shiftLeft_add_eq_or_of_lt y.isLt, Nat.shiftLeft_eq]

/-- R63: a row number is the gray level without its bit 0. -/
theorem rowNumber_of_level (x : Level) : (x.extractLsb' 1 4 : RowNumber).toNat = x.toNat / 2 := by
  have := x.isLt
  rw [BitVec.extractLsb'_toNat, Nat.shiftRight_eq_div_pow]
  omega

theorem rowOf_toNat (source destination : Level) :
    (rowOf source destination).toNat = source.toNat / 2 * 16 + destination.toNat / 2 := by
  unfold rowOf
  rw [rowNumber_append_toNat, rowNumber_of_level, rowNumber_of_level]

theorem rowOf_eq_ofNat (source destination : Level) :
    rowOf source destination = BitVec.ofNat 8 (source.toNat / 2 * 16 + destination.toNat / 2) := by
  rw [← rowOf_toNat, BitVec.ofNat_toNat, BitVec.setWidth_eq]

@[simp] theorem rowS_rowOf (source destination : Level) : rowS (rowOf source destination) = source.toNat / 2 := by
  unfold rowS rowOf
  rw [BitVec.extractLsb'_append_eq_left, rowNumber_of_level]

@[simp] theorem rowD_rowOf (source destination : Level) :
    rowD (rowOf source destination) = destination.toNat / 2 := by
  unfold rowD rowOf
  rw [BitVec.extractLsb'_append_eq_right, rowNumber_of_level]

/-- The flat index of slot `k` of a transition's row (R38). -/
theorem slotIndex_rowOf (source destination : Level) (k : Nat) :
    slotIndex (rowOf source destination) k = (source.toNat / 2 * 16 + destination.toNat / 2) * 64 + k := by
  simp [slotIndex, flatIndex]

theorem remOf_toNat (b : Byte) : (remOf b).toNat = b.toNat % 64 := by
  simp [remOf]

/-- OUTER is its IDX with DB set above it (R18). -/
theorem outerOf_eq_or (db : Bool) (idx : SeqIndex) :
    outerOf db idx = (if db = true then 0x80 else 0) ||| idx.setWidth 8 := by
  cases db with
  | false => rfl
  | true => rfl

/-- An offset that is a slot of the row fits IDX whole (R18, R39). -/
theorem setWidth_idx_of_slot {o : Byte} (h : o.toNat < 64) : (o.setWidth 7).setWidth 8 = o := by
  apply BitVec.eq_of_toNat_eq
  simp only [BitVec.toNat_setWidth]
  omega

theorem outerOf_slot {o : Byte} (h : o.toNat < 64) (db : Bool) :
    outerOf db (o.setWidth 7) = if db = true then 0x80 ||| o else o := by
  rw [outerOf_eq_or, setWidth_idx_of_slot h]
  cases db with
  | false => exact BitVec.zero_or
  | true => rfl

end Sys2Proof.Machine
end

section
/-! SUPPORT. SCHEDULE: one equation for each way it can go (R92). -/

namespace Sys2Proof.Machine

theorem lutFetch_outside {s : State} {k : Nat} (row : RowPair) (h : 64 ≤ k) : lutFetch s row k = .outside := by
  simp [lutFetch, h]

theorem lutFetch_entry {s : State} {row : RowPair} {k : Nat} {b : Byte} (h : k < 64)
    (hb : Memory.read s.mem.lut (slotIndex row k) = some b) : lutFetch s row k = .entry b := by
  simp [lutFetch, Nat.not_le.2 h, hb]

variable {s : State} {mode o b : Byte} (source destination : Level)

theorem exec_schedule (mode : Byte) (s : State) :
    exec (.schedule source destination mode) s = execSchedule source destination mode s := rfl

theorem execSchedule_dropped (mode : Byte) (h : s.p.pstate = .fault ∨ s.p.outer ≠ 0) :
    execSchedule source destination mode s = .next s := by
  unfold execSchedule
  rcases h with hfault | hplaying
  · rw [if_pos hfault]
  · rw [if_pos hplaying, ite_self]

theorem execSchedule_modeIndex (hok : s.p.pstate = .ok) (hidle : s.p.outer = 0)
    (hmode : s.cfg.numModes ≤ mode.toNat) :
    execSchedule source destination mode s = .next (takeException .player (.modeIndex mode.toNat) s) := by
  simp [execSchedule, hok, hidle, hmode]

theorem execSchedule_lutIndex (hok : s.p.pstate = .ok) (hidle : s.p.outer = 0)
    (hmode : mode.toNat < s.cfg.numModes) (ho : Memory.read s.mem.moff mode.toNat = some o) (hslot : 64 ≤ o.toNat) :
    execSchedule source destination mode s = .next (takeException .player (.lutIndex o.toNat) s) := by
  simp [execSchedule, hok, hidle, Nat.not_le.2 hmode, ho, lutFetch_outside _ hslot]

theorem execSchedule_loads (hok : s.p.pstate = .ok) (hidle : s.p.outer = 0)
    (hmode : mode.toNat < s.cfg.numModes) (ho : Memory.read s.mem.moff mode.toNat = some o) (hslot : o.toNat < 64)
    (hb : Memory.read s.mem.lut (slotIndex (rowOf source destination) o.toNat) = some b) :
    execSchedule source destination mode s =
      .next (setCounters (outerOf (loadedDb b) (o.setWidth 7)) b
        { s with p := { s.p with row := rowOf source destination } }) := by
  simp [execSchedule, hok, hidle, Nat.not_le.2 hmode, ho, lutFetch_entry hslot hb]

end Sys2Proof.Machine
end

section
/-! The rule of SCHEDULE (R92). -/

namespace Sys2Proof.Machine

/-- OUTER as SCHEDULE writes it: the mode's offset, under DB when the loaded byte's low 6 bits exceed 1 (R92). -/
theorem scheduled_outer {o : Byte} (h : o.toNat < 64) (b : Byte) :
    outerOf (loadedDb b) (o.setWidth 7) = if 1 < b.toNat % 64 then 0x80 ||| o else o := by
  simp only [outerOf_slot h, loadedDb, remOf_toNat, decide_eq_true_eq]

/-- Settles O33: SCHEDULE's equation in each of its cases, the row, the address and OUTER read as numbers. -/
theorem scheduleFollowsItsRule : Obligations.ScheduleFollowsItsRule := by
  intro s source destination mode o b
  simp only [exec_schedule, ← slotIndex_rowOf, ← rowOf_eq_ofNat]
  refine ⟨execSchedule_dropped source destination mode, fun hok hidle =>
    ⟨execSchedule_modeIndex source destination hok hidle, fun hmode ho =>
      ⟨execSchedule_lutIndex source destination hok hidle hmode ho, fun hslot hb => ?_⟩⟩⟩
  rw [execSchedule_loads source destination hok hidle hmode ho hslot hb, setCounters_playing,
    scheduled_outer hslot]
  rfl

end Sys2Proof.Machine
end

section
/-! SUPPORT. The four stream tokens: one equation for each way each of them can go (R67 to R70). -/

namespace Sys2Proof.Machine

theorem exec_endTok (s : State) : exec .endTok s = .next (setCState .done s) := rfl

theorem exec_lit (v : Byte) (s : State) : exec (.lit v) s = .next (litToken s.c.cur v s) := rfl

theorem exec_rep (v c : Byte) (s : State) : exec (.rep v c) s = execRep v c s := rfl

theorem exec_tog (v : Byte) (count : Option Byte) (s : State) : exec (.tog v count) s = execTog v count s := rfl

theorem litToken_eq (a : Nat) (v : Byte) (s : State) :
    litToken a v s = { s with c := { s.c with out := s.c.out ++ [v], cur := a + 1 } } := rfl

theorem repToken_eq (a : Nat) (v c : Byte) (s : State) :
    repToken a v c s =
      { s with c := { s.c with out := s.c.out ++ List.replicate (c.toNat + 1) v, cur := a + 2 } } := rfl

variable {s : State} (v c : Byte)

theorem execRep_readable (h : s.c.cur + 1 < limit s) : execRep v c s = .next (repToken s.c.cur v c s) := by
  rw [execRep, provided_one, if_neg (Nat.not_le.2 h)]

theorem execRep_truncated (h : limit s ≤ s.c.cur + 1) :
    execRep v c s = .next (takeException .codec (.truncated (s.c.cur + 1)) s) := by
  rw [execRep, provided_one, if_pos h]

theorem execTog_toLiteral (h : s.c.cur + 1 < limit s) :
    execTog v none s = .next (litToken (s.c.cur + 1) v (setMode .literalMode s)) := by
  simp only [execTog]
  rw [provided_one, if_neg (Nat.not_le.2 h)]

theorem execTog_toRepeat (h : s.c.cur + 2 < limit s) :
    execTog v (some c) s = .next (repToken (s.c.cur + 1) v c (setMode .repeatMode s)) := by
  have hvalue : s.c.cur + 1 < limit s := by omega
  simp only [execTog]
  rw [provided_two, if_neg (Nat.not_le.2 hvalue), if_neg (Nat.not_le.2 h)]

/-- Both forms of a TOG need the value byte first (R68, R116). -/
theorem execTog_value_truncated (count : Option Byte) (h : limit s ≤ s.c.cur + 1) :
    execTog v count s = .next (takeException .codec (.truncated (s.c.cur + 1)) s) := by
  cases count with
  | none =>
    simp only [execTog]
    rw [provided_one, if_pos h]
  | some c =>
    simp only [execTog]
    rw [provided_two, if_pos h]

theorem execTog_count_truncated (hvalue : s.c.cur + 1 < limit s) (hcount : limit s ≤ s.c.cur + 2) :
    execTog v (some c) s = .next (takeException .codec (.truncated (s.c.cur + 2)) s) := by
  simp only [execTog]
  rw [provided_two, if_neg (Nat.not_le.2 hvalue), if_pos hcount]

end Sys2Proof.Machine
end

section
/-! The rules of the four stream tokens (R67 to R70). -/

namespace Sys2Proof.Machine

/-- Settles O18: TOG's equation in each of its cases. The token's own form says which mode it was read in, so the
mode's premises decide nothing that the form does not. -/
theorem togFlipsTheModeAndRunsItsValue : Obligations.TogFlipsTheModeAndRunsItsValue := by
  intro s v c
  simp only [exec_tog]
  refine ⟨fun _ hvalue => ?_, fun _ hcount => ?_, fun hvalue => ?_, fun _ => execTog_count_truncated v c⟩
  · rw [execTog_toLiteral v hvalue, litToken_eq]
    rfl
  · rw [execTog_toRepeat v c hcount, repToken_eq]
    rfl
  · exact ⟨execTog_value_truncated v none hvalue, execTog_value_truncated v (some c) hvalue⟩

/-- Settles O15: END writes CSTATE alone. -/
theorem endTokenOnlyEndsTheRun : Obligations.EndTokenOnlyEndsTheRun := by
  intro s
  rw [exec_endTok]
  rfl

/-- Settles O16: LIT is the literal token's two writes at CUR. -/
theorem litEmitsItsValueOnce : Obligations.LitEmitsItsValueOnce := by
  intro s v
  rw [exec_lit, litToken_eq]

/-- Settles O17: REP's equation on both sides of the limit; a count byte is below 256. -/
theorem repEmitsCountPlusOneCopies : Obligations.RepEmitsCountPlusOneCopies := by
  intro s v c
  have hcount : c.toNat < 256 := c.isLt
  simp only [exec_rep]
  refine ⟨fun hreadable => ?_, execRep_truncated v c, by omega, by omega⟩
  rw [execRep_readable v c hreadable, repToken_eq]

end Sys2Proof.Machine
end

section
/-! SUPPORT. The step of a running ENC, and the encoder step at the end of its input (R82, R85). -/

namespace Sys2Proof.Machine

/-- While an ENC runs, the step is the encoder step (R14, R82). -/
theorem step_encoding {s : State} {src : Nat} (hbusy : s.c.cstate = .busy) (henc : s.c.encSrc = some src) :
    step s = encStep src s := by
  unfold step nextIssue
  rw [if_pos hbusy, henc]

/-- From BOUND on there is no segment left to encode (R82). -/
theorem encStep_atBound {s : State} {src : Nat} (h : s.c.bound ≤ s.c.cur) : encStep src s = .next (encEnd s) :=
  if_pos h

theorem encEnd_eq (s : State) :
    encEnd s = { s with c := { s.c with out := s.c.out ++ [0xFF], cstate := .done } } := rfl

end Sys2Proof.Machine
end

section
/-! The rule of the encoder's end (R85). -/

namespace Sys2Proof.Machine

/-- Settles O26: a running ENC at BOUND takes the encoder's last step, whatever MODE is. -/
theorem encoderEndsWithTheEndToken : Obligations.EncoderEndsWithTheEndToken := by
  intro s src hbusy henc hbound
  rw [step_encoding hbusy henc, encStep_atBound (Nat.le_of_eq hbound.symm), encEnd_eq]

end Sys2Proof.Machine
end

section
/-! SUPPORT. The words EVOLVE computes, as numbers: the fields of a table entry (R57), INNER counted down (R94, R97),
OUTER's index and flag (R18), and the slots of the latched row (R38, R39). -/

namespace Sys2Proof.Machine

/-- R57: EOS and RUN together are the remainder unit P counts down, the EOS bit weighing 32. -/
theorem entryByte_rem (p : Phase) (eos : Bool) (r : RunLength) :
    (entryByte p eos r).toNat % 64 = 32 * eos.toNat + r.toNat := by
  have hr : r.toNat < 32 := r.isLt
  have heos : (BitVec.ofBool eos).toNat = eos.toNat := BitVec.toNat_ofBool eos
  have hle : eos.toNat ≤ 1 := Bool.toNat_le eos
  unfold entryByte
  rw [BitVec.toNat_append, BitVec.toNat_append, ← Nat.shiftLeft_add_eq_or_of_lt r.isLt,
    ← Nat.shiftLeft_add_eq_or_of_lt (BitVec.ofBool eos).isLt, heos]
  simp only [Nat.shiftLeft_eq]
  omega

@[simp] theorem phaseOf_entryByte (p : Phase) (eos : Bool) (r : RunLength) : phaseOf (entryByte p eos r) = p := by
  unfold phaseOf entryPhase entryByte
  rw [BitVec.append_assoc]
  exact BitVec.extractLsb'_append_eq_left

theorem phaseOf_toNat (b : Byte) : (phaseOf b).toNat = b.toNat / 64 := by
  have := b.isLt
  unfold phaseOf entryPhase
  rw [BitVec.extractLsb'_toNat, Nat.shiftRight_eq_div_pow]
  omega

theorem phaseOf_countDown (b : Byte) : phaseOf (countDown b) = phaseOf b := by
  unfold countDown
  exact BitVec.extractLsb'_append_eq_left

theorem remOf_eq_zero_iff (b : Byte) : remOf b = 0 ↔ b.toNat % 64 = 0 := by
  rw [← BitVec.toNat_inj, remOf_toNat]
  rfl

theorem remOf_eq_one_iff (b : Byte) : remOf b = 1 ↔ b.toNat % 64 = 1 := by
  rw [← BitVec.toNat_inj, remOf_toNat]
  rfl

theorem sub_one_toNat {b : Byte} (h : 1 ≤ b.toNat) : (b - 1).toNat = b.toNat - 1 :=
  BitVec.toNat_sub_of_le h

/-- R94, R97: with a remainder to count, the count down borrows nothing from PHASE. -/
theorem countDown_eq {b : Byte} (h : 1 ≤ b.toNat % 64) : countDown b = b - 1 := by
  have hle : (1 : Remainder) ≤ remOf b := by
    rw [BitVec.le_def, remOf_toNat]
    exact h
  have hrem : (remOf b - 1).toNat = b.toNat % 64 - 1 := by
    rw [BitVec.toNat_sub_of_le hle, remOf_toNat]
    rfl
  apply BitVec.eq_of_toNat_eq
  rw [sub_one_toNat (by omega), countDown, BitVec.toNat_append,
    ← Nat.shiftLeft_add_eq_or_of_lt (remOf b - 1).isLt, Nat.shiftLeft_eq, phaseOf_toNat, hrem]
  omega

theorem sub_one_rem {b : Byte} (h : 1 ≤ b.toNat % 64) : (b - 1).toNat % 64 = b.toNat % 64 - 1 := by
  rw [sub_one_toNat (by omega)]
  omega

theorem phaseOf_sub_one {b : Byte} (h : 1 ≤ b.toNat % 64) : phaseOf (b - 1) = phaseOf b := by
  rw [← countDown_eq h, phaseOf_countDown]

theorem idxOf_toNat (outer : OuterWord) : (idxOf outer).toNat = outer.toNat % 128 := by
  simp [idxOf]

/-- OUTER as a number: DB weighs 128 (R18). -/
theorem outerOf_toNat (db : Bool) (idx : SeqIndex) : (outerOf db idx).toNat = 128 * db.toNat + idx.toNat := by
  unfold outerOf
  rw [BitVec.toNat_append, ← Nat.shiftLeft_add_eq_or_of_lt idx.isLt, Nat.shiftLeft_eq, BitVec.toNat_ofBool]
  omega

theorem outerOf_idx (db : Bool) (idx : SeqIndex) : (outerOf db idx).toNat % 128 = idx.toNat := by
  have := idx.isLt
  rw [outerOf_toNat]
  omega

/-- R95: OUTER at a slot of the row with DB set. -/
theorem outerOf_true_slot {k : Nat} (h : k < 64) : outerOf true (BitVec.ofNat 7 k) = BitVec.ofNat 8 (128 + k) := by
  apply BitVec.eq_of_toNat_eq
  rw [outerOf_toNat, BitVec.toNat_ofNat, BitVec.toNat_ofNat, Bool.toNat_true]
  omega

theorem clearDb_idx (outer : OuterWord) : (clearDb outer).toNat % 128 = outer.toNat % 128 := by
  rw [clearDb, outerOf_idx, idxOf_toNat]

/-- R94: clearing DB masks bit 7. -/
theorem clearDb_eq_and (outer : OuterWord) : clearDb outer = outer &&& 0x7F := by
  apply BitVec.eq_of_toNat_eq
  have hmask : (outer &&& 0x7F).toNat = outer.toNat % 128 := Nat.and_two_pow_sub_one_eq_mod outer.toNat 7
  rw [clearDb, outerOf_toNat, idxOf_toNat, hmask, Bool.toNat_false]
  omega

/-- R97: with DB clear already, clearing it changes nothing. -/
theorem clearDb_of_clear {outer : OuterWord} (h : dbOf outer = false) : clearDb outer = outer := by
  have hmsb : outer.msb = false := by rwa [BitVec.msb_eq_getLsbD_last]
  have hlt : 2 * outer.toNat < 2 ^ 8 := BitVec.msb_eq_false_iff_two_mul_lt.1 hmsb
  apply BitVec.eq_of_toNat_eq
  rw [clearDb, outerOf_toNat, idxOf_toNat, Bool.toNat_false]
  omega

/-- The flat index of a slot of the latched row, ROW being its two row numbers side by side (R21, R38). -/
theorem slotIndex_toNat (row : RowPair) (k : Nat) : slotIndex row k = row.toNat * 64 + k := by
  have hrow := row.isLt
  have hS : rowS row = row.toNat / 16 := by
    rw [rowS, BitVec.extractLsb'_toNat, Nat.shiftRight_eq_div_pow]
    omega
  have hD : rowD row = row.toNat % 16 := by simp [rowD]
  simp only [slotIndex, flatIndex, Config.rows_eq, Config.slots_eq, hS, hD]
  omega

end Sys2Proof.Machine
end

section
/-! SUPPORT. EVOLVE with any entry byte as the current one: one equation for each way it can go (R93 to R97), and
FRAME's (R99). -/

namespace Sys2Proof.Machine

variable {s : State} {b : Byte}

theorem exec_evolve (s : State) : exec .evolve s = evolveWith s.p.inner s := rfl

theorem exec_frame (s : State) : exec .frame s = execFrame s := rfl

/-- Past the fault gate and case E1 (R93, R114). -/
theorem evolveWith_active (hactive : active s) :
    evolveWith b s =
      if 1 < (remOf b).toNat ∧ dbOf s.p.outer = true then .next (evolveE2 b s)
      else if remOf b = 1 then evolveE3 s
      else if remOf b = 0 then .next (evolveE4 s)
      else .next (evolveE5 b s) := by
  obtain ⟨hok, hplaying⟩ := hactive
  have hfault : s.p.pstate ≠ .fault := by simp [hok]
  rw [evolveWith, if_neg hfault, if_neg hplaying]

/-- Cases E2 and E5 at once: they differ only in DB, and DB ends clear in both (R94, R97). -/
theorem evolveWith_countsDown (hactive : active s) (hrem : 1 < b.toNat % 64) :
    evolveWith b s = .next (setCounters (clearDb s.p.outer) (b - 1) s) := by
  have hcount : countDown b = b - 1 := countDown_eq (by omega)
  have hone : remOf b ≠ 1 := by rw [Ne, remOf_eq_one_iff]; omega
  have hzero : remOf b ≠ 0 := by rw [Ne, remOf_eq_zero_iff]; omega
  rw [evolveWith_active hactive]
  cases hdb : dbOf s.p.outer with
  | true => rw [if_pos ⟨by rwa [remOf_toNat], rfl⟩, evolveE2, hcount]
  | false => rw [if_neg (by simp), if_neg hone, if_neg hzero, evolveE5, hcount, clearDb_of_clear hdb]

/-- A remainder of 1 is case E3, whatever DB is (R93, R95). -/
theorem evolveWith_one (hactive : active s) (hrem : b.toNat % 64 = 1) : evolveWith b s = evolveE3 s := by
  rw [evolveWith_active hactive, remOf_toNat, if_neg (by omega), if_pos ((remOf_eq_one_iff b).2 hrem)]

/-- A remainder of 0 is case E4, whatever DB is (R93, R96). -/
theorem evolveWith_empty (hactive : active s) (hrem : b.toNat % 64 = 0) :
    evolveWith b s = .next (setCounters 0 0 s) := by
  have hone : remOf b ≠ 1 := by rw [Ne, remOf_eq_one_iff]; omega
  rw [evolveWith_active hactive, remOf_toNat, if_neg (by omega), if_neg hone,
    if_pos ((remOf_eq_zero_iff b).2 hrem), evolveE4]

/-- Case E3 inside the row (R95). -/
theorem evolveE3_loads {k : Nat} (hidx : s.p.outer.toNat % 128 + 1 = k) (hslot : k < 64)
    (hb : Memory.read s.mem.lut (slotIndex s.p.row k) = some b) :
    evolveE3 s = .next (setCounters (outerOf true (BitVec.ofNat 7 k)) b s) := by
  simp [evolveE3, idxOf_toNat, hidx, lutFetch_entry hslot hb]

/-- Case E3 past the row's last slot (R39, R95). -/
theorem evolveE3_raises {k : Nat} (hidx : s.p.outer.toNat % 128 + 1 = k) (hslot : 64 ≤ k) :
    evolveE3 s = .next (takeException .player (.lutIndex k) s) := by
  simp [evolveE3, idxOf_toNat, hidx, lutFetch_outside _ hslot]

theorem execFrame_ok (hok : s.p.pstate = .ok) :
    execFrame s = .next { s with p := { s.p with hist := s.p.hist ++ [activePhase s.p], sel := !s.p.sel } } := by
  simp [execFrame, hok, emitHist, flipSel]

theorem execFrame_fault (hfault : s.p.pstate = .fault) : execFrame s = .next s := if_pos hfault

end Sys2Proof.Machine
end

section
/-! The rules of EVOLVE (R94 to R97) and of FRAME (R99). -/

namespace Sys2Proof.Machine

/-- Settles O37: cases E2 and E5 share one equation; the count down keeps PHASE. -/
theorem evolveCountsTheRunDown : Obligations.EvolveCountsTheRunDown := by
  intro s hactive hrem
  rw [exec_evolve, evolveWith_countsDown hactive hrem, setCounters_playing, phaseOf_sub_one (by omega),
    clearDb_eq_and]
  rfl

/-- Settles O38: case E3 on both sides of the row's end. -/
theorem evolveLoadsTheNextEntry : Obligations.EvolveLoadsTheNextEntry := by
  intro s hactive hrem
  rw [exec_evolve, evolveWith_one hactive hrem]
  refine ⟨fun b hslot hb => ?_, evolveE3_raises rfl⟩
  rw [← slotIndex_toNat] at hb
  rw [evolveE3_loads rfl hslot hb, setCounters_playing, outerOf_true_slot hslot]
  rfl

/-- Settles O39: case E4. -/
theorem emptyRemainderReturnsToIdle : Obligations.EmptyRemainderReturnsToIdle := by
  intro s hactive hrem
  rw [exec_evolve, evolveWith_empty hactive hrem, setCounters_playing]
  rfl

/-- Settles O45: FRAME's equation in and out of fault. -/
theorem frameEmitsTheActiveSlotAndSwaps : Obligations.FrameEmitsTheActiveSlotAndSwaps :=
  fun _ => ⟨execFrame_ok, execFrame_fault⟩

end Sys2Proof.Machine
end

section
/-! SUPPORT. Runs of the machine (R128), and the steps in which the host presents an operation of a playback. -/

namespace Sys2Proof.Machine

variable {s t : State} {later : List HostMove}

theorem run_zero (s : State) : run 0 s = .next s := rfl

theorem run_succ (h : step s = .next t) (n : Nat) : run (n + 1) s = run n t := by
  simp only [run, Host.Core.run, core, h]

/-- A run goes on from where its first part ended. -/
theorem run_add {m : Nat} (h : run m s = .next t) (n : Nat) : run (m + n) s = run n t := by
  induction m generalizing s with
  | zero =>
    cases h
    rw [Nat.zero_add]
  | succ m ih =>
    rw [Nat.add_right_comm]
    cases hstep : step s with
    | next u =>
      rw [run_succ hstep] at h ⊢
      exact ih h
    | fault r => simp [run, Host.Core.run, core, hstep] at h
    | refused r => simp [run, Host.Core.run, core, hstep] at h

/-- R14, R128: with no codec run in progress, the step is the operation the host presents. -/
theorem step_operation {p : OpPort} (hcodec : s.c.cstate ≠ .busy) (hhost : s.host = .operation p :: later) :
    step s = exec (decodeOp p) { s with host := later } := by
  unfold step nextIssue hostIssue
  rw [if_neg hcodec, hhost]

theorem step_schedule {source destination : Level} {mode : Byte} (hcodec : s.c.cstate ≠ .busy)
    (hhost : s.host = moveOf (.schedule source destination mode) :: later) :
    step s = execSchedule source destination mode { s with host := later } :=
  step_operation hcodec hhost

theorem step_evolve (hcodec : s.c.cstate ≠ .busy) (hhost : s.host = moveOf .evolve :: later) :
    step s = evolveWith s.p.inner { s with host := later } :=
  step_operation hcodec hhost

theorem step_frame (hcodec : s.c.cstate ≠ .busy) (hhost : s.host = moveOf .frame :: later) :
    step s = execFrame { s with host := later } :=
  step_operation hcodec hhost

theorem playSteps_add (m n : Nat) : playSteps (m + n) = playSteps m ++ playSteps n := by
  induction m with
  | zero => rw [Nat.zero_add]; rfl
  | succ m ih => rw [Nat.add_right_comm, playSteps, ih]; rfl

end Sys2Proof.Machine
end

section
/-! SUPPORT. Summaries as they are packed and expanded (R58, R61). -/

namespace Sys2Proof.Machine

/-- R58: the last pair, and it alone, bears EOS. -/
theorem pack_cons (x : Phase × Nat) (S : Summary) :
    pack (x :: S) = entryByte x.1 S.isEmpty (BitVec.ofNat 5 x.2) :: pack S := by
  cases S with
  | nil => rfl
  | cons y S => rfl

theorem expand_length (S : Summary) : (expand S).length = totalFrames S := by
  induction S with
  | nil => rfl
  | cons x S ih => rw [expand, List.length_append, List.length_replicate, ih, totalFrames]

/-- The remainder a pair of a packable Summary is loaded with: EOS weighs 32 (R57, R58). -/
theorem entryByte_rem_of_pair {x : Phase × Nat} (h : x.2 ≤ Config.runCap) (eos : Bool) :
    (entryByte x.1 eos (BitVec.ofNat 5 x.2)).toNat % 64 = 32 * eos.toNat + x.2 := by
  rw [Config.runCap_eq] at h
  rw [entryByte_rem, BitVec.toNat_ofNat, Nat.mod_eq_of_lt (by omega)]

theorem Memory.readRange_cons {m : Memory} {a n : Nat} {b : Byte} {bs : List Byte}
    (h : Memory.readRange m a (n + 1) = some (b :: bs)) :
    Memory.read m a = some b ∧ Memory.readRange m (a + 1) n = some bs := by
  unfold Memory.readRange at h
  split at h
  · rename_i hb hbs
    cases h
    exact ⟨hb, hbs⟩
  · cases h

end Sys2Proof.Machine
end

section
/-! SUPPORT. Unit P between two steps of a playback, and the stretches of a playback: for every frame it emits, one
FRAME then one EVOLVE (R101). -/

namespace Sys2Proof.Machine

/-- Unit P plays the entry of slot `k`, not slot 0: its phase is `ph`, in INNER and in the slot the next FRAME emits
(R98), and `r` of its remainder is left. -/
structure Shows (s : State) (k : Nat) (ph : Phase) (r : Nat) : Prop where
  ok : s.p.pstate = .ok
  started : 1 ≤ k
  idx : s.p.outer.toNat % 128 = k
  remainder : s.p.inner.toNat % 64 = r
  phase : phaseOf s.p.inner = ph
  emitted : activePhase s.p = ph

/-- From `s` as many steps as `frames` is long end in `t`, appending `frames` to HIST and leaving the host with the
moves `later`; ROW, unit C and the memories stay. -/
structure Plays (frames : List Phase) (later : List HostMove) (s t : State) : Prop where
  runs : run (2 * frames.length) s = .next t
  hist : t.p.hist = s.p.hist ++ frames
  host : t.host = later
  row : t.p.row = s.p.row
  codec : t.c = s.c
  mem : t.mem = s.mem

/-- A state after the FRAME of a step, the moves `later` left to the host after that step (R99). -/
def framed (later : List HostMove) (s : State) : State :=
  { s with host := later, p := { s.p with hist := s.p.hist ++ [activePhase s.p], sel := !s.p.sel } }

variable {s t u : State} {k r n : Nat} {ph : Phase} {o : OuterWord} {b : Byte}
variable {frames frames' : List Phase} {later later' : List HostMove}

theorem Shows.active (h : Shows s k ph r) : active s := by
  refine ⟨h.ok, fun hidle => ?_⟩
  have hidx : 0 % 128 = k := by simpa [hidle] using h.idx
  have := h.started
  omega

/-- However an entry's byte comes into INNER, the slot the next FRAME emits shows its phase (R98). -/
theorem shows_setCounters (hok : s.p.pstate = .ok) (hk : 1 ≤ k) (hidx : o.toNat % 128 = k)
    (hrem : b.toNat % 64 = r) (hph : phaseOf b = ph) : Shows (setCounters o b s) k ph r where
  ok := by rwa [setCounters_pstate]
  started := hk
  idx := by rwa [setCounters_outer]
  remainder := by rwa [setCounters_inner]
  phase := by rwa [setCounters_inner]
  emitted := by rwa [activePhase_setCounters]

theorem Plays.refl (s : State) : Plays [] s.host s s where
  runs := run_zero s
  hist := (List.append_nil _).symm
  host := rfl
  row := rfl
  codec := rfl
  mem := rfl

theorem Plays.trans (h : Plays frames later s t) (h' : Plays frames' later' t u) :
    Plays (frames ++ frames') later' s u where
  runs := by rw [List.length_append, Nat.mul_add, run_add h.runs, h'.runs]
  hist := by rw [h'.hist, h.hist, List.append_assoc]
  host := h'.host
  row := h'.row.trans h.row
  codec := h'.codec.trans h.codec
  mem := h'.mem.trans h.mem

/-- One step: FRAME emits the active slot, and EVOLVE writes OUTER and INNER. -/
theorem plays_step (hcodec : s.c.cstate ≠ .busy) (hok : s.p.pstate = .ok) (hhost : s.host = playSteps 1 ++ later)
    (hevolve : evolveWith s.p.inner (framed later s) = .next (setCounters o b (framed later s))) :
    Plays [activePhase s.p] later s (setCounters o b (framed later s)) where
  runs := by
    have hframe : step s = .next (framed (moveOf .evolve :: later) s) :=
      (step_frame hcodec hhost).trans (execFrame_ok hok)
    have hnext : step (framed (moveOf .evolve :: later) s) = .next (setCounters o b (framed later s)) :=
      (step_evolve (s := framed (moveOf .evolve :: later) s) hcodec rfl).trans hevolve
    exact (run_succ hframe 1).trans (run_succ hnext 0)
  hist := setCounters_hist o b _
  host := rfl
  row := setCounters_row o b _
  codec := rfl
  mem := rfl

theorem Shows.active_framed (h : Shows s k ph r) (later : List HostMove) : Machine.active (framed later s) :=
  h.active

/-- R94, R97: a step while more than one of the remainder is left counts it down. -/
theorem Shows.plays_countDown (h : Shows s k ph (r + 1)) (hr : 1 ≤ r) (hcodec : s.c.cstate ≠ .busy)
    (hhost : s.host = playSteps 1 ++ later) : ∃ t, Plays [ph] later s t ∧ Shows t k ph r := by
  have hrem := h.remainder
  have hstep := plays_step hcodec h.ok hhost (evolveWith_countsDown (h.active_framed later) (by omega))
  rw [h.emitted] at hstep
  refine ⟨_, hstep, shows_setCounters h.ok h.started ((clearDb_idx _).trans h.idx) ?_ ?_⟩
  · rw [sub_one_rem (by omega), hrem, Nat.add_sub_cancel]
  · rw [phaseOf_sub_one (by omega), h.phase]

/-- R95: the step that finds one left of the remainder loads the next slot of the row. -/
theorem Shows.plays_load (h : Shows s k ph 1) (hslot : k + 1 < 64)
    (hb : Memory.read s.mem.lut (slotIndex s.p.row (k + 1)) = some b) (hcodec : s.c.cstate ≠ .busy)
    (hhost : s.host = playSteps 1 ++ later) :
    ∃ t, Plays [ph] later s t ∧ Shows t (k + 1) (phaseOf b) (b.toNat % 64) := by
  have hevolve : evolveWith s.p.inner (framed later s) =
      .next (setCounters (outerOf true (BitVec.ofNat 7 (k + 1))) b (framed later s)) :=
    (evolveWith_one (h.active_framed later) h.remainder).trans (evolveE3_loads (congrArg (· + 1) h.idx) hslot hb)
  have hidx : (outerOf true (BitVec.ofNat 7 (k + 1))).toNat % 128 = k + 1 := by
    rw [outerOf_idx, BitVec.toNat_ofNat]
    omega
  have hstep := plays_step hcodec h.ok hhost hevolve
  rw [h.emitted] at hstep
  exact ⟨_, hstep, shows_setCounters h.ok (by omega) hidx rfl rfl⟩

/-- An entry emits its phase once for every count of its remainder (R94, R97). -/
theorem Shows.plays_run (h : Shows s k ph (r + n)) (hr : 1 ≤ r) (hcodec : s.c.cstate ≠ .busy)
    (hhost : s.host = playSteps n ++ later) : ∃ t, Plays (List.replicate n ph) later s t ∧ Shows t k ph r := by
  induction n generalizing s with
  | zero => exact ⟨s, (show s.host = later from hhost) ▸ Plays.refl s, h⟩
  | succ n ih =>
    obtain ⟨t, hst, ht⟩ := h.plays_countDown (r := r + n) (by omega) hcodec (later := playSteps n ++ later) hhost
    obtain ⟨u, htu, hu⟩ := ih ht (hst.codec ▸ hcodec) hst.host
    exact ⟨u, hst.trans htu, hu⟩

/-- R103, R104: from its first entry on, a Summary packed in the latched row is played in full, and its last entry is
left with the 32 its EOS bit weighs. -/
theorem Shows.plays_summary {x : Phase × Nat} {S : Summary} (h : Shows s k x.1 (32 * S.isEmpty.toNat + x.2))
    (hruns : ∀ y ∈ x :: S, 1 ≤ y.2 ∧ y.2 ≤ Config.runCap) (hslots : k + S.length < 64)
    (hrow : Memory.readRange s.mem.lut (slotIndex s.p.row (k + 1)) S.length = some (pack S))
    (hcodec : s.c.cstate ≠ .busy) (hhost : s.host = playSteps (totalFrames (x :: S)) ++ later) :
    ∃ t, Plays (expand (x :: S)) later s t ∧
      Shows t (k + S.length) ((x :: S).getLast (List.cons_ne_nil x S)).1 32 := by
  induction S generalizing s k x with
  | nil =>
    rw [expand, expand, List.append_nil]
    exact h.plays_run (by decide) hcodec hhost
  | cons y S ih =>
    obtain ⟨hx, -⟩ := hruns x List.mem_cons_self
    obtain ⟨-, hy⟩ := hruns y (List.mem_cons_of_mem x List.mem_cons_self)
    obtain ⟨m, hm⟩ : ∃ m, x.2 = m + 1 := ⟨x.2 - 1, by omega⟩
    rw [List.length_cons] at hslots
    rw [pack_cons] at hrow
    obtain ⟨hbyte, hrest⟩ := Memory.readRange_cons hrow
    have hhold : Shows s k x.1 (1 + m) := by
      rw [Nat.add_comm, ← hm]
      simpa using h
    have hmoves : s.host = playSteps m ++ (playSteps 1 ++ (playSteps (totalFrames (y :: S)) ++ later)) := by
      rw [hhost, totalFrames, hm, playSteps_add, playSteps_add, List.append_assoc, List.append_assoc]
    obtain ⟨t, hst, ht⟩ := hhold.plays_run (Nat.le_refl 1) hcodec hmoves
    obtain ⟨u, htu, hu⟩ := ht.plays_load (by omega) (by rw [hst.mem, hst.row]; exact hbyte)
      (hst.codec ▸ hcodec) hst.host
    have hsu := hst.trans htu
    rw [phaseOf_entryByte, entryByte_rem_of_pair hy] at hu
    obtain ⟨v, huv, hv⟩ := ih hu (fun z hz => hruns z (List.mem_cons_of_mem x hz)) (by omega)
      (by rw [hsu.mem, hsu.row]; exact hrest) (hsu.codec ▸ hcodec) hsu.host
    refine ⟨v, ?_, ?_⟩
    · rw [expand, hm, List.replicate_succ']
      exact hsu.trans huv
    · rw [List.getLast_cons_cons, List.length_cons, Nat.add_comm S.length, ← Nat.add_assoc]
      exact hv

end Sys2Proof.Machine
end

section
/-! SUPPORT. The SCHEDULE a playback starts with (R92). -/

namespace Sys2Proof.Machine

/-- SCHEDULE of a conformant row, as the step it is: the Summary's first entry is loaded, from a slot that is not 0
(R92, R102). -/
theorem step_schedule_conformant {s : State} {source destination : Level} {mode o : Byte} {x : Phase × Nat}
    {S : Summary} {later : List HostMove} (hcodec : s.c.cstate ≠ .busy) (hok : s.p.pstate = .ok)
    (hidle : s.p.outer = 0) (hrow : conformantRow s source destination mode o (x :: S))
    (hhost : s.host = moveOf (.schedule source destination mode) :: later) :
    ∃ t, step s = .next t ∧ Shows t o.toNat x.1 (32 * S.isEmpty.toNat + x.2) ∧ t.p.hist = s.p.hist ∧
      t.p.row = rowOf source destination ∧ t.c = s.c ∧ t.mem = s.mem ∧ t.host = later := by
  obtain ⟨hmode, hoffset, hstart, ⟨-, hruns⟩, hslots, hentries⟩ := hrow
  obtain ⟨-, hx⟩ := hruns x List.mem_cons_self
  rw [List.length_cons, Config.slots_eq] at hslots
  rw [pack_cons] at hentries
  obtain ⟨hbyte, -⟩ := Memory.readRange_cons hentries
  have hslot : o.toNat < 64 := by omega
  have hidx (db : Bool) : (outerOf db (o.setWidth 7)).toNat % 128 = o.toNat := by
    rw [outerOf_idx, BitVec.toNat_setWidth]
    omega
  have hstep := (step_schedule hcodec hhost).trans
    (execSchedule_loads source destination (s := { s with host := later }) hok hidle hmode hoffset hslot hbyte)
  refine ⟨_, hstep, ?_, setCounters_hist _ _ _, setCounters_row _ _ _, rfl, rfl, rfl⟩
  exact shows_setCounters hok hstart (hidx _) (entryByte_rem_of_pair hx _) (phaseOf_entryByte _ _ _)

end Sys2Proof.Machine
end

section
/-! Fidelity of a playback (R103). -/

namespace Sys2Proof.Machine

/-- Settles O47: SCHEDULE loads the first entry of the Summary, and from there its steps emit `expand(S)`, by induction
on the Summary. -/
theorem playbackReproducesTheExpandedSummary : Obligations.PlaybackReproducesTheExpandedSummary := by
  intro s source destination mode o S later hcodec hok hidle hrow hhost
  cases S with
  | nil =>
    obtain ⟨-, -, -, ⟨hne, -⟩, -, -⟩ := hrow
    exact absurd rfl hne
  | cons x S =>
    obtain ⟨t, hstep, hshows, hhist, hlatched, hc, hmem, hmoves⟩ :=
      step_schedule_conformant hcodec hok hidle hrow hhost
    obtain ⟨-, -, -, ⟨-, hruns⟩, hslots, hentries⟩ := hrow
    rw [List.length_cons, Config.slots_eq] at hslots
    rw [pack_cons] at hentries
    obtain ⟨-, hrest⟩ := Memory.readRange_cons hentries
    obtain ⟨u, hplays, hu⟩ := hshows.plays_summary hruns (by omega) (by rw [hmem, hlatched]; exact hrest)
      (hc ▸ hcodec) hmoves
    have hrun := hplays.runs
    rw [expand_length] at hrun
    refine ⟨u, ?_, ?_, hu.ok, hplays.codec.trans hc, hplays.mem.trans hmem, hplays.host⟩
    · rw [Nat.add_comm, run_succ hstep, hrun]
    · rw [hplays.hist, hhist]

end Sys2Proof.Machine
end

section
/-! SUPPORT. The unit an instruction does not act on (R1, R11): no register and no stream of it is written. -/

namespace Sys2Proof.Machine

variable {s t : State} {i : Instr}

theorem evolveE3_c (h : evolveE3 s = .next t) : t.c = s.c := by
  rcases evolveE3_next h with ⟨_, rfl⟩ | ⟨_, _, _, rfl⟩
  · rw [takeException_player_c]
  · rw [setCounters_c]

theorem evolveWith_c {b : Byte} (h : evolveWith b s = .next t) : t.c = s.c := by
  rcases evolveWith_next h with ⟨_, rfl⟩ | ⟨_, _, rfl⟩ | ⟨_, hload⟩ | ⟨_, rfl⟩ | ⟨_, _, rfl⟩
  · rfl
  · rw [evolveE2, setCounters_c]
  · exact evolveE3_c hload
  · rw [evolveE4, setCounters_c]
  · rw [evolveE5, setCounters_c]

theorem execSchedule_c {source destination : Level} {mode : Byte}
    (h : execSchedule source destination mode s = .next t) : t.c = s.c := by
  rcases execSchedule_next h with ⟨_, rfl⟩ | ⟨_, rfl⟩ | ⟨_, _, _, ⟨_, rfl⟩ | ⟨_, _, _, rfl⟩⟩
  · rfl
  · rw [takeException_player_c]
  · rw [takeException_player_c]
  · rw [setCounters_c]

theorem execFrame_c (h : execFrame s = .next t) : t.c = s.c := by
  rcases execFrame_next h with ⟨_, rfl⟩ | ⟨_, rfl⟩ <;> rfl

/-- R1, R11: an entry and an operation of unit P leave unit C. An entry's meaning is an EVOLVE (log entry 9). -/
theorem exec_player_c (hunit : unitOf i = some .player) (h : exec i s = .next t) : t.c = s.c := by
  cases i with
  | nil | pair | pairLast | reservedEntry | evolve => exact evolveWith_c h
  | schedule => exact execSchedule_c h
  | frame => exact execFrame_c h
  | endTok | tog | rep | lit | dec | enc | reservedOp => cases hunit

theorem execTog_p {v : Byte} {count : Option Byte} (h : execTog v count s = .next t) : t.p = s.p := by
  rcases execTog_next h with ⟨_, rfl⟩ | ⟨_, _, rfl⟩ | ⟨_, _, _, rfl⟩
  · rw [takeException_codec_p]
  · rw [litToken_eq, setMode_p]
  · rw [repToken_eq, setMode_p]

theorem execRep_p {v c : Byte} (h : execRep v c s = .next t) : t.p = s.p := by
  rcases provided_next h with ⟨rfl, _⟩ | ⟨_, _, rfl⟩
  · rw [repToken_eq]
  · rw [takeException_codec_p]

theorem execDec_p {off : Addr} {bound : Extent} (h : execDec off bound s = .next t) : t.p = s.p := by
  rcases execDec_next h with rfl | ⟨_, rfl⟩
  · rfl
  · rw [openRun_p]

theorem execEnc_p {src : Addr} {length : Extent} (h : execEnc src length s = .next t) : t.p = s.p := by
  rcases execEnc_next h with rfl | ⟨_, _, rfl, ⟨_, rfl⟩ | ⟨_, _, rfl⟩⟩
  · rfl
  · rw [openRun_p]
  · rw [takeException_codec_p, openRun_p]

/-- R1, R11: a token, a DEC and an ENC leave unit P. -/
theorem exec_codec_p (hunit : unitOf i = some .codec) (h : exec i s = .next t) : t.p = s.p := by
  cases i with
  | endTok | lit => cases h; rfl
  | tog => exact execTog_p h
  | rep => exact execRep_p h
  | dec => exact execDec_p h
  | enc => exact execEnc_p h
  | nil | pair | pairLast | reservedEntry | schedule | evolve | frame | reservedOp => cases hunit

/-- The decoder reads unit C's instructions alone (R50). -/
theorem unitOf_decodeToken {m : Mode} {bytes rest : List Byte} (h : decodeToken m bytes = .ok (i, rest)) :
    unitOf i = some .codec := by
  rcases decodeToken_forms h with rfl | ⟨_, rfl⟩ | ⟨_, _, rfl⟩ | ⟨_, _, rfl⟩ | ⟨_, rfl⟩ <;> rfl

/-- R1, R11: a step of a running ENC leaves unit P. -/
theorem encStep_p {src : Nat} (h : encStep src s = .next t) : t.p = s.p := by
  rcases encStep_next h with ⟨_, rfl⟩ | ⟨_, _, _, _, rfl⟩ | ⟨_, _, _, _, _, rfl⟩
  · rw [encEnd_eq]
  · simp only [encRun, setCur_p, setMode_p, emitOut_p]
  · simp only [encStretch, setCur_p, setMode_p, emitOut_p]

end Sys2Proof.Machine
end

section
/-! SUPPORT. A unit in fault: the operations it drops, and every step of the machine but a RESET (R114, R115). -/

namespace Sys2Proof.Machine

variable {s t : State} {p : OpPort}

theorem exec_dec (off : Addr) (bound : Extent) (s : State) : exec (.dec off bound) s = execDec off bound s := rfl

theorem exec_enc (src : Addr) (length : Extent) (s : State) : exec (.enc src length) s = execEnc src length s := rfl

theorem execDec_dropped (off : Addr) (bound : Extent) (h : accepts s.c.cstate = false) :
    execDec off bound s = .next s := by
  simp [execDec, h]

theorem execEnc_dropped (src : Addr) (length : Extent) (h : accepts s.c.cstate = false) :
    execEnc src length s = .next s := by
  simp [execEnc, h]

theorem evolveWith_dropped (b : Byte) (h : s.p.pstate = .fault ∨ s.p.outer = 0) : evolveWith b s = .next s := by
  unfold evolveWith
  rcases h with hfault | hidle
  · rw [if_pos hfault]
  · rw [if_pos hidle, ite_self]

theorem not_accepts_of_fault (hfault : s.c.cstate = .fault) : accepts s.c.cstate = false := by
  rw [hfault]; rfl

/-- R114: in C_FAULT no operation the host presents writes unit C: its own are dropped, the others are unit P's or
reserved. -/
theorem operation_keeps_faulted_codec (hfault : s.c.cstate = .fault) (h : exec (decodeOp p) s = .next t) :
    t.c = s.c := by
  have hdrops := not_accepts_of_fault hfault
  rcases opCode_cases p.op with hop | hop | hop | hop | hop | hop
  · rw [decodeOp_dec hop, exec_dec, execDec_dropped _ _ hdrops] at h
    cases h; rfl
  · rw [decodeOp_enc hop, exec_enc, execEnc_dropped _ _ hdrops] at h
    cases h; rfl
  · rw [decodeOp_schedule hop] at h
    exact exec_player_c rfl h
  · rw [decodeOp_evolve hop] at h
    exact exec_player_c rfl h
  · rw [decodeOp_frame hop] at h
    exact exec_player_c rfl h
  · rw [decodeOp_reservedOp hop, exec_reservedOp] at h
    cases h; rfl

/-- R114: in P_FAULT no operation the host presents writes unit P: its own are dropped, the others are unit C's or
reserved. -/
theorem operation_keeps_faulted_player (hfault : s.p.pstate = .fault) (h : exec (decodeOp p) s = .next t) :
    t.p = s.p := by
  rcases opCode_cases p.op with hop | hop | hop | hop | hop | hop
  · rw [decodeOp_dec hop] at h
    exact exec_codec_p rfl h
  · rw [decodeOp_enc hop] at h
    exact exec_codec_p rfl h
  · rw [decodeOp_schedule hop, exec_schedule, execSchedule_dropped _ _ _ (.inl hfault)] at h
    cases h; rfl
  · rw [decodeOp_evolve hop, exec_evolve, evolveWith_dropped _ (.inl hfault)] at h
    cases h; rfl
  · rw [decodeOp_frame hop, exec_frame, execFrame_fault hfault] at h
    cases h; rfl
  · rw [decodeOp_reservedOp hop, exec_reservedOp] at h
    cases h; rfl

/-- R114: C_FAULT is not C_BUSY, so a step is a move of the host, and none but RESET writes unit C then. -/
theorem step_keeps_faulted_codec (hstep : step s = .next t) (hreset : ∀ later, s.host ≠ .reset :: later)
    (hfault : s.c.cstate = .fault) : t.c = s.c := by
  have hidle : s.c.cstate ≠ .busy := by rw [hfault]; exact CState.noConfusion
  rcases step_next hstep with ⟨hbusy, _⟩ | ⟨hbusy, _⟩ | ⟨hbusy, _⟩ | ⟨_, _, rfl⟩ | ⟨_, later, hhost, _⟩ |
    ⟨_, p, later, _, hexec⟩ | ⟨_, _, _, _, _, _, _, rfl⟩ | ⟨_, _, _, _, rfl⟩
  · exact absurd hbusy hidle
  · exact absurd hbusy hidle
  · exact absurd hbusy hidle
  · rfl
  · exact absurd hhost (hreset later)
  · exact operation_keeps_faulted_codec (s := { s with host := later }) hfault hexec
  · rfl
  · rfl

/-- R114: a codec run goes on while unit P is in fault and leaves it; of the host's moves only RESET writes unit P
then. -/
theorem step_keeps_faulted_player (hstep : step s = .next t) (hreset : ∀ later, s.host ≠ .reset :: later)
    (hfault : s.p.pstate = .fault) : t.p = s.p := by
  rcases step_next hstep with ⟨_, src, _, henc⟩ | ⟨_, _, i, rest, htoken, hexec⟩ | ⟨_, _, _, _, _, rfl⟩ |
    ⟨_, _, rfl⟩ | ⟨_, later, hhost, _⟩ | ⟨_, p, later, _, hexec⟩ | ⟨_, _, _, _, _, _, _, rfl⟩ | ⟨_, _, _, _, rfl⟩
  · exact encStep_p henc
  · exact exec_codec_p (unitOf_decodeToken htoken) hexec
  · rw [takeException_codec_p]
  · rfl
  · exact absurd hhost (hreset later)
  · exact operation_keeps_faulted_player (s := { s with host := later }) hfault hexec
  · rfl
  · rfl

end Sys2Proof.Machine
end

section
/-! The rule of a faulted unit (R114). -/

namespace Sys2Proof.Machine

/-- Settles O14: the fault gate of each operation, the frame of taking an exception, and what a step leaves of a
faulted unit. -/
theorem faultedUnitStaysUntilReset : Obligations.FaultedUnitStaysUntilReset := by
  intro s
  refine ⟨fun hfault a b => ?_, fun hfault => ⟨fun a b m => ?_, ?_, ?_⟩, fun e => ⟨?_, ?_⟩,
    fun t hstep hreset => ⟨step_keeps_faulted_codec hstep hreset, step_keeps_faulted_player hstep hreset⟩⟩
  · have hdrops := not_accepts_of_fault hfault
    exact ⟨execDec_dropped a b hdrops, execEnc_dropped a b hdrops⟩
  · exact execSchedule_dropped a b m (.inl hfault)
  · exact evolveWith_dropped s.p.inner (.inl hfault)
  · exact execFrame_fault hfault
  · exact takeException_codec_p e s
  · exact takeException_player_c e s

end Sys2Proof.Machine
end

section
/-! SUPPORT. The three encodings, read back: the fields of an entry byte (R57), and the bytes of a token before
whatever follows them (R50 to R55). -/

namespace Sys2Proof

/-! ## The entry byte -/

@[simp] theorem entryPhase_entryByte (p : Phase) (eos : Bool) (r : RunLength) : entryPhase (entryByte p eos r) = p :=
  Machine.phaseOf_entryByte p eos r

@[simp] theorem entryRun_entryByte (p : Phase) (eos : Bool) (r : RunLength) : entryRun (entryByte p eos r) = r :=
  BitVec.extractLsb'_append_eq_right

@[simp] theorem entryEos_entryByte (p : Phase) (eos : Bool) (r : RunLength) : entryEos (entryByte p eos r) = eos := by
  unfold entryEos entryByte
  rw [BitVec.getLsbD_append, if_neg (by decide), BitVec.getLsbD_append, if_pos (by decide)]
  cases eos <;> rfl

/-- The three fields are the whole byte (R57). -/
theorem entryByte_fields (b : Byte) : entryByte (entryPhase b) (entryEos b) (entryRun b) = b := by
  revert b; decide

theorem entryByte_eq_zero_iff (p : Phase) (eos : Bool) (r : RunLength) :
    entryByte p eos r = 0 ↔ p = 0 ∧ eos = false ∧ r = 0 := by
  constructor
  · intro h
    refine ⟨?_, ?_, ?_⟩
    · rw [← entryPhase_entryByte p eos r, h]; rfl
    · rw [← entryEos_entryByte p eos r, h]; rfl
    · rw [← entryRun_entryByte p eos r, h]; rfl
  · rintro ⟨rfl, rfl, rfl⟩
    rfl

theorem decodeEntry_zero : decodeEntry 0 = .nil := rfl

variable {p : Phase} {eos : Bool} {r : RunLength}

theorem entryByte_ne_zero_of_run (hr : r ≠ 0) : entryByte p eos r ≠ 0 :=
  fun h => hr ((entryByte_eq_zero_iff p eos r).1 h).2.2

theorem decodeEntry_pair (hr : r ≠ 0) : decodeEntry (entryByte p false r) = .pair p r := by
  rw [decodeEntry, if_neg (entryByte_ne_zero_of_run hr), entryRun_entryByte, if_neg hr]
  simp

theorem decodeEntry_pairLast (hr : r ≠ 0) : decodeEntry (entryByte p true r) = .pairLast p r := by
  rw [decodeEntry, if_neg (entryByte_ne_zero_of_run hr), entryRun_entryByte, if_neg hr]
  simp

theorem decodeEntry_reserved (h : p ≠ 0 ∨ eos = true) : decodeEntry (entryByte p eos 0) = .reservedEntry p eos := by
  have hne : entryByte p eos 0 ≠ 0 := by
    rw [Ne, entryByte_eq_zero_iff]
    rintro ⟨hp, heos, -⟩
    simp [hp, heos] at h
  rw [decodeEntry, if_neg hne]
  simp

/-- Every entry byte is one of the four forms (R57, R59, R60). -/
theorem decodeEntry_cases (b : Byte) :
    (b = 0 ∧ decodeEntry b = .nil) ∨
      (entryRun b = 0 ∧ (entryPhase b ≠ 0 ∨ entryEos b = true) ∧
        decodeEntry b = .reservedEntry (entryPhase b) (entryEos b)) ∨
      (entryRun b ≠ 0 ∧ entryEos b = true ∧ decodeEntry b = .pairLast (entryPhase b) (entryRun b)) ∨
      (entryRun b ≠ 0 ∧ entryEos b = false ∧ decodeEntry b = .pair (entryPhase b) (entryRun b)) := by
  have hfields := entryByte_fields b
  by_cases hzero : b = 0
  · subst hzero
    exact .inl ⟨rfl, decodeEntry_zero⟩
  by_cases hrun : entryRun b = 0
  · refine .inr (.inl ⟨hrun, ?_, by rw [decodeEntry, if_neg hzero, if_pos hrun]⟩)
    rw [hrun] at hfields
    by_contra hnone
    simp only [not_or, not_not, Bool.not_eq_true] at hnone
    exact hzero (by rw [← hfields, entryByte_eq_zero_iff]; exact ⟨hnone.1, hnone.2, rfl⟩)
  cases heos : entryEos b with
  | true => exact .inr (.inr (.inl ⟨hrun, rfl, by rw [decodeEntry, if_neg hzero, if_neg hrun, if_pos heos]⟩))
  | false => exact .inr (.inr (.inr ⟨hrun, rfl, by rw [decodeEntry, if_neg hzero, if_neg hrun, heos]; rfl⟩))

/-! ## The token's bytes -/

@[simp] theorem tokenBytes_endTok : tokenBytes .endTok = [Config.endToken] := rfl
@[simp] theorem tokenBytes_togLiteral (v : Byte) : tokenBytes (.tog v none) = [Config.toggleToken, v] := rfl
@[simp] theorem tokenBytes_togRepeat (v c : Byte) : tokenBytes (.tog v (some c)) = [Config.toggleToken, v, c] := rfl
@[simp] theorem tokenBytes_rep (v c : Byte) : tokenBytes (.rep v c) = [v, c] := rfl
@[simp] theorem tokenBytes_lit (v : Byte) : tokenBytes (.lit v) = [v] := rfl

/-- An instruction with bytes in the stream is one of the four kinds of token (R50). -/
theorem token_cases {i : Instr} (h : tokenBytes i ≠ []) :
    i = .endTok ∨ (∃ v, i = .tog v none) ∨ (∃ v c, i = .tog v (some c)) ∨ (∃ v c, i = .rep v c) ∨ ∃ v, i = .lit v := by
  cases i with
  | endTok | rep | lit => simp
  | tog v count => cases count <;> simp
  | nil | pair | pairLast | reservedEntry | dec | enc | schedule | evolve | frame | reservedOp => exact absurd rfl h

/-- A token is at most three bytes long (R50). -/
theorem tokenBytes_length_le (i : Instr) : (tokenBytes i).length ≤ 3 := by
  by_cases h : tokenBytes i = []
  · simp [h]
  · rcases token_cases h with rfl | ⟨v, rfl⟩ | ⟨v, c, rfl⟩ | ⟨v, c, rfl⟩ | ⟨v, rfl⟩ <;> simp

theorem plainValue_iff (v : Byte) : Instr.plainValue v = true ↔ v ≠ Config.endToken ∧ v ≠ Config.toggleToken := by
  simp [Instr.plainValue]

/-- At a token position a value that is no token is read under the mode (R50, R53, R54). -/
theorem decodeToken_plain {v : Byte} (m : Mode) (rest : List Byte) (h : Instr.plainValue v = true) :
    decodeToken m (v :: rest) = decodeValue m v rest := by
  obtain ⟨hend, htog⟩ := (plainValue_iff v).1 h
  rw [Machine.decodeToken_cons, if_neg hend, if_neg htog]

theorem decodeToken_end (m : Mode) (rest : List Byte) :
    decodeToken m (Config.endToken :: rest) = .ok (.endTok, rest) := rfl

theorem decodeToken_toggle (m : Mode) (rest : List Byte) :
    decodeToken m (Config.toggleToken :: rest) = decodeToggled m rest := rfl

/-- What the encoder writes for a token, the decoder reads back, whatever follows (R50 to R55). -/
theorem decodeToken_tokenBytes {i : Instr} {m : Mode} (hwf : i.wellFormed = true) (hmode : i.readUnder m = true)
    (htoken : tokenBytes i ≠ []) (rest : List Byte) : decodeToken m (tokenBytes i ++ rest) = .ok (i, rest) := by
  rcases token_cases htoken with rfl | ⟨v, rfl⟩ | ⟨v, c, rfl⟩ | ⟨v, c, rfl⟩ | ⟨v, rfl⟩
  · exact decodeToken_end m rest
  · obtain rfl : m = .repeatMode := by simpa [Instr.readUnder] using hmode
    exact decodeToken_toggle _ _
  · obtain rfl : m = .literalMode := by simpa [Instr.readUnder] using hmode
    exact decodeToken_toggle _ _
  · obtain rfl : m = .repeatMode := by simpa [Instr.readUnder] using hmode
    exact decodeToken_plain _ _ hwf
  · obtain rfl : m = .literalMode := by simpa [Instr.readUnder] using hmode
    exact decodeToken_plain _ _ hwf

/-- Bytes that are exactly a token's decode to it. -/
theorem decode_token {i : Instr} {m : Mode} (hwf : i.wellFormed = true) (hmode : i.readUnder m = true)
    (htoken : tokenBytes i ≠ []) : decode m (.stream (tokenBytes i)) = .ok i := by
  have h := decodeToken_tokenBytes hwf hmode htoken []
  rw [List.append_nil] at h
  simp only [decode, h]

theorem decodeToggled_ok {m : Mode} {bytes rest : List Byte} {i : Instr} (h : decodeToggled m bytes = .ok (i, rest)) :
    i.wellFormed = true ∧ i.readUnder m = true ∧ Config.toggleToken :: bytes = tokenBytes i ++ rest := by
  match m, bytes with
  | .repeatMode, [] | .literalMode, [] | .literalMode, [_] => cases h
  | .repeatMode, _ :: _ | .literalMode, _ :: _ :: _ => cases h; exact ⟨rfl, rfl, rfl⟩

theorem decodeValue_ok {m : Mode} {v : Byte} {bytes rest : List Byte} {i : Instr} (hv : Instr.plainValue v = true)
    (h : decodeValue m v bytes = .ok (i, rest)) :
    i.wellFormed = true ∧ i.readUnder m = true ∧ v :: bytes = tokenBytes i ++ rest := by
  match m, bytes with
  | .repeatMode, [] => cases h
  | .literalMode, _ | .repeatMode, _ :: _ => cases h; exact ⟨hv, rfl, rfl⟩

/-- What the decoder reads is a well-formed token of the mode, and the bytes are the encoder's (R50, R55). -/
theorem decodeToken_ok {m : Mode} {bytes rest : List Byte} {i : Instr} (h : decodeToken m bytes = .ok (i, rest)) :
    i.wellFormed = true ∧ i.readUnder m = true ∧ bytes = tokenBytes i ++ rest := by
  cases bytes with
  | nil => cases h
  | cons t bytes =>
    rw [Machine.decodeToken_cons] at h
    split at h
    · rename_i hend
      cases h
      exact ⟨rfl, rfl, by rw [hend]; rfl⟩
    split at h
    · rename_i htog
      rw [htog]
      exact decodeToggled_ok h
    · rename_i hend htog
      exact decodeValue_ok ((plainValue_iff t).2 ⟨hend, htog⟩) h

end Sys2Proof
end

section
/-! The encodings read back (R50 to R62). -/

namespace Sys2Proof

/-- Settles O1: row by row of the table. A token is read back before any bytes; an entry's fields are its byte's; an
operation's code selects it and the port carries its operands. -/
theorem decodeOfEncodeIsTheInstruction : Obligations.DecodeOfEncodeIsTheInstruction := by
  intro i m hwf hmode
  refine ⟨?_, decodeToken_tokenBytes hwf hmode⟩
  cases i with
  | endTok | rep | lit => exact decode_token hwf hmode (List.cons_ne_nil _ _)
  | tog v count => cases count <;> exact decode_token hwf hmode (List.cons_ne_nil _ _)
  | nil => exact congrArg Except.ok decodeEntry_zero
  | pair p r => exact congrArg Except.ok (decodeEntry_pair (by simpa [Instr.wellFormed] using hwf))
  | pairLast p r => exact congrArg Except.ok (decodeEntry_pairLast (by simpa [Instr.wellFormed] using hwf))
  | reservedEntry p eos => exact congrArg Except.ok (decodeEntry_reserved (by simpa [Instr.wellFormed] using hwf))
  | dec | enc | schedule | evolve | frame => rfl
  | reservedOp code =>
    have hcode : code = 2 ∨ code = 3 ∨ code = 7 := by simpa [Instr.wellFormed, or_assoc] using hwf
    exact congrArg Except.ok (decodeOp_reservedOp (p := portOf code) hcode)

/-- Settles O2: the three ways a token is read, END, after a TOG and under the mode. -/
theorem decodedTokenReencodesToItsBytes : Obligations.DecodedTokenReencodesToItsBytes :=
  fun _ _ _ _ => decodeToken_ok

/-- Settles O3: each of the four forms writes back the byte whose fields it holds. -/
theorem entryByteReencodesToItself : Obligations.EntryByteReencodesToItself := by
  intro b
  have hfields := entryByte_fields b
  rcases decodeEntry_cases b with ⟨rfl, h⟩ | ⟨hrun, hother, h⟩ | ⟨hrun, heos, h⟩ | ⟨hrun, heos, h⟩
  · exact ⟨rfl, rfl⟩
  · rw [hrun] at hfields
    rw [h, encode, hfields]
    exact ⟨by simpa [Instr.wellFormed] using hother, rfl⟩
  · rw [heos] at hfields
    rw [h, encode, hfields]
    exact ⟨by simpa [Instr.wellFormed] using hrun, rfl⟩
  · rw [heos] at hfields
    rw [h, encode, hfields]
    exact ⟨by simpa [Instr.wellFormed] using hrun, rfl⟩

/-- Settles O5: the decoder run on each word. -/
theorem writtenWordsDecode : Obligations.WrittenWordsDecode := by
  refine ⟨rfl, rfl, rfl, rfl, rfl, ?_, ?_, ?_, ?_⟩ <;> decide

end Sys2Proof
end

section
/-! SUPPORT. The step, case by case: the host's moves when no codec run is in progress (R128), and the opening of
a codec run (R65, R81). -/

namespace Sys2Proof.Machine

variable {s : State} {later : List HostMove}

theorem step_waiting (hcodec : s.c.cstate ≠ .busy) (hhost : s.host = []) : step s = .next s := by
  unfold step nextIssue hostIssue
  rw [if_neg hcodec, hhost]

theorem step_read {r : Reg} (hcodec : s.c.cstate ≠ .busy) (hhost : s.host = .read r :: later) :
    step s = .next { s with host := later } := by
  unfold step nextIssue hostIssue
  rw [if_neg hcodec, hhost]

theorem step_reset (hcodec : s.c.cstate ≠ .busy) (hhost : s.host = .reset :: later) :
    step s = .next (applyReset { s with host := later }) := by
  unfold step nextIssue hostIssue
  rw [if_neg hcodec, hhost]

theorem step_write {space : Space} {a : Nat} {b : Byte} (hcodec : s.c.cstate ≠ .busy)
    (hhost : s.host = .write space a b :: later) : step s = hostWrite space a b { s with host := later } := by
  unfold step nextIssue hostIssue
  rw [if_neg hcodec, hhost]

theorem hostWrite_inside {space : Space} {a : Nat} (b : Byte) (h : a < spaceSize s.cfg space) :
    hostWrite space a b s = .next { s with mem := s.mem.set space (Memory.store (s.mem.get space) a b) } :=
  if_pos h

theorem hostWrite_outside {space : Space} {a : Nat} (b : Byte) (h : spaceSize s.cfg space ≤ a) :
    hostWrite space a b s = .fault (.noSuchAddress space a) :=
  if_neg (Nat.not_lt.2 h)

theorem Memories.get_set_other (m : Memories) {space other : Space} (x : Memory) (h : other ≠ space) :
    (m.set space x).get other = m.get other := by
  cases space with
  | imem => cases other with
    | imem => exact absurd rfl h
    | lut | moff => rfl
  | lut => cases other with
    | lut => exact absurd rfl h
    | imem | moff => rfl
  | moff => cases other with
    | moff => exact absurd rfl h
    | imem | lut => rfl

/-! ## The opening of a run -/

theorem accepts_of_accepting (h : accepting s) : accepts s.c.cstate = true := by
  rcases h with h | h <;> rw [h] <;> rfl

theorem accepting_ne_busy (h : accepting s) : s.c.cstate ≠ .busy := by
  rcases h with h | h <;> rw [h] <;> exact CState.noConfusion

theorem openRun_eq_opened (cur bound : Nat) (encSrc : Option Nat) (s : State) :
    openRun cur bound encSrc s = opened cur bound encSrc s := rfl

theorem execDec_accepted (off : Addr) (bound : Extent) (h : accepting s) :
    execDec off bound s = .next (opened off.toNat bound.toNat none s) := by
  rw [execDec, if_pos (accepts_of_accepting h), openRun_eq_opened]

theorem not_accepts_of_busy (hbusy : s.c.cstate = .busy) : accepts s.c.cstate = false := by
  rw [hbusy]; rfl

end Sys2Proof.Machine
end

section
/-! The host's moves, RESET, a host store, and the opening of a DEC (R26, R62, R65, R112 to R115, R123, R128). -/

namespace Sys2Proof.Machine

/-- Settles O7: the step with an operation of the host pending. -/
theorem stepRunsTheHostsOperation : Obligations.StepRunsTheHostsOperation :=
  fun _ _ _ => step_operation

/-- Settles O8: the step with no move pending, and with a read. -/
theorem waitingAndReadingChangeNothing : Obligations.WaitingAndReadingChangeNothing :=
  fun _ hcodec => ⟨step_waiting hcodec, fun _ _ => step_read hcodec⟩

/-- Settles O10: the reset values are those of the machine right after reset. -/
theorem resetSetsEveryRegister : Obligations.ResetSetsEveryRegister := by
  intro s later hcodec hhost
  rw [step_reset hcodec hhost, applyReset, State.reset_c, State.reset_p]

/-- Settles O11: a host store is one store in one memory, inside its size. -/
theorem hostStoreIsReadBack : Obligations.HostStoreIsReadBack := by
  intro s space a b later hcodec hhost
  rw [step_write hcodec hhost]
  refine ⟨fun hin => ⟨_, hostWrite_inside b hin, ?_, fun a' ha' => ?_, fun other hother => ?_, fun hwf => ?_,
    rfl, rfl, rfl, rfl⟩, hostWrite_outside (s := { s with host := later }) b⟩
  · rw [Memories.get_set_same, Memory.read_store_same]
  · rw [Memories.get_set_same, Memory.read_store_other _ _ ha']
  · exact Memories.get_set_other _ _ hother
  · rw [Memories.get_set_same]
    exact Memory.store_wf hwf a b

/-- Settles O13: the codes of each exception, by definition. -/
theorem exceptionWritesOnlyTheFaultRecord : Obligations.ExceptionWritesOnlyTheFaultRecord :=
  fun _ _ => ⟨rfl, rfl, rfl, rfl⟩

/-- Settles O19: DEC in an accepting state. -/
theorem decOpensItsRun : Obligations.DecOpensItsRun :=
  fun _ off bound haccepting => execDec_accepted off bound haccepting

/-- Settles O20: neither C_BUSY nor C_FAULT accepts. -/
theorem codecIgnoresOperationsUnlessIdleOrDone : Obligations.CodecIgnoresOperationsUnlessIdleOrDone := by
  intro s a b hstate
  have hdrops : accepts s.c.cstate = false := hstate.elim not_accepts_of_busy not_accepts_of_fault
  exact ⟨execDec_dropped a b hdrops, execEnc_dropped a b hdrops⟩

/-- Settles O46: the meaning of a reserved code. -/
theorem reservedCodeChangesNothing : Obligations.ReservedCodeChangesNothing :=
  fun s code => exec_reservedOp code s

end Sys2Proof.Machine
end

section
/-! SUPPORT. What a running DEC reads: bytes that stand in IMEM below the limit, and the token they make (R36, R66). -/

namespace Sys2Proof.Machine

/-- The bytes stand in IMEM from `a` on, every one of them below the limit (R36). -/
def Readable (s : State) (a : Nat) (bytes : List Byte) : Prop :=
  ∀ k, k < bytes.length → a + k < limit s ∧ Memory.read s.mem.imem (a + k) = bytes[k]?

variable {s t : State} {a : Nat} {i : Instr} {bytes rest : List Byte}

theorem readable_nil (s : State) (a : Nat) : Readable s a [] := fun _ h => absurd h (Nat.not_lt_zero _)

theorem readable_cons {b : Byte} :
    Readable s a (b :: bytes) ↔ (a < limit s ∧ Memory.read s.mem.imem a = some b) ∧ Readable s (a + 1) bytes := by
  constructor
  · refine fun h => ⟨h 0 (Nat.zero_lt_succ _), fun k hk => ?_⟩
    have := h (k + 1) (Nat.succ_lt_succ hk)
    rwa [← Nat.add_assoc, Nat.add_right_comm, List.getElem?_cons_succ] at this
  · rintro ⟨hb, hbytes⟩ (_ | k) hk
    · exact hb
    · have := hbytes k (Nat.lt_of_succ_lt_succ hk)
      rwa [← Nat.add_assoc, Nat.add_right_comm, List.getElem?_cons_succ]

theorem readable_append :
    Readable s a (bytes ++ rest) ↔ Readable s a bytes ∧ Readable s (a + bytes.length) rest := by
  induction bytes generalizing a with
  | nil => simp [readable_nil]
  | cons b bytes ih =>
    rw [List.cons_append, readable_cons, readable_cons, ih, List.length_cons, Nat.add_right_comm, Nat.add_assoc]
    exact and_assoc.symm

/-- Readable bytes end at the limit at most. -/
theorem Readable.le_limit (h : Readable s a bytes) (hne : bytes ≠ []) : a + bytes.length ≤ limit s := by
  have hpos := List.length_pos_iff.2 hne
  obtain ⟨hlast, -⟩ := h (bytes.length - 1) (by omega)
  omega

/-- A range that is loaded up to the limit is readable. -/
theorem readable_of_readRange (h : Memory.readRange s.mem.imem a (limit s - a) = some bytes) : Readable s a bytes := by
  obtain ⟨hlength, hread⟩ := Memory.readRange_spec h
  exact fun k hk => ⟨by omega, hread k (by omega)⟩

/-- What a machine reads is fixed by its limit and its IMEM from `a` up to it. -/
theorem Readable.congr (h : Readable s a bytes) (hlimit : limit t = limit s)
    (hmem : ∀ j, a ≤ j → j < limit s → Memory.read t.mem.imem j = Memory.read s.mem.imem j) : Readable t a bytes := by
  intro k hk
  obtain ⟨hlt, hread⟩ := h k hk
  exact ⟨by rwa [hlimit], by rw [hmem _ (Nat.le_add_right _ _) hlt, hread]⟩

/-! ## The token window -/

theorem window_beyond (h : limit s ≤ a) (n : Nat) : window s a n = [] := by
  cases n with
  | zero => rfl
  | succ n => rw [window, fetch_beyond h]

/-- A window starts with the bytes that are readable there. -/
theorem window_of_readable (h : Readable s a bytes) (n : Nat) :
    window s a (bytes.length + n) = bytes ++ window s (a + bytes.length) n := by
  induction bytes generalizing a with
  | nil => rw [List.length_nil, Nat.zero_add]; rfl
  | cons b bytes ih =>
    obtain ⟨⟨hlt, hb⟩, hbytes⟩ := readable_cons.1 h
    rw [List.length_cons, Nat.add_right_comm, window, fetch_byte hlt hb]
    simp only [ih hbytes, List.cons_append]
    rw [Nat.add_right_comm, Nat.add_assoc]

theorem readable_tokenWindow (s : State) : Readable s s.c.cur (tokenWindow s) :=
  (window_spec s s.c.cur 3).2.1

theorem tokenWindow_of_readable (h : Readable s s.c.cur bytes) (hlength : bytes.length ≤ 3) :
    ∃ rest, tokenWindow s = bytes ++ rest := by
  obtain ⟨n, hn⟩ := Nat.exists_eq_add_of_le hlength
  exact ⟨_, by rw [tokenWindow, hn, window_of_readable h]⟩

/-- At the limit the window holds what is readable and no more. -/
theorem tokenWindow_at_limit (h : Readable s s.c.cur bytes) (hlength : bytes.length ≤ 3)
    (hlimit : limit s ≤ s.c.cur + bytes.length) : tokenWindow s = bytes := by
  obtain ⟨n, hn⟩ := Nat.exists_eq_add_of_le hlength
  rw [tokenWindow, hn, window_of_readable h, window_beyond hlimit, List.append_nil]

/-! ## The decoder step -/

/-- What the decoder reads has bytes in the stream (R50). -/
theorem tokenBytes_ne_nil {m : Mode} (h : decodeToken m bytes = .ok (i, rest)) : tokenBytes i ≠ [] := by
  rcases decodeToken_forms h with rfl | ⟨v, rfl⟩ | ⟨v, c, rfl⟩ | ⟨v, c, rfl⟩ | ⟨v, rfl⟩ <;>
    exact List.cons_ne_nil _ _

/-- R66: the step runs the token at the head of the window. -/
theorem step_of_decoded (hbusy : s.c.cstate = .busy) (hdec : s.c.encSrc = none)
    (h : decodeToken s.c.mode (tokenWindow s) = .ok (i, rest)) : step s = exec i s := by
  unfold step nextIssue
  rw [if_pos hbusy, hdec]
  simp only [tokenIssue, h]

/-- R66, R109, R125: the step misses a byte, at the limit or one the host never stored. -/
theorem step_of_missing {k : Nat} (hbusy : s.c.cstate = .busy) (hdec : s.c.encSrc = none)
    (h : decodeToken s.c.mode (tokenWindow s) = .error (.needByte k)) :
    step s = if limit s ≤ s.c.cur + k then .next (takeException .codec (.truncated (s.c.cur + k)) s)
      else .fault (.unloadedByte .imem (s.c.cur + k)) := by
  unfold step nextIssue
  rw [if_pos hbusy, hdec]
  by_cases hlimit : limit s ≤ s.c.cur + k
  · simp only [tokenIssue, h, if_pos hlimit]
  · simp only [tokenIssue, h, if_neg hlimit]

/-- R66: the token that is readable at CUR is the one the step runs. -/
theorem step_token (hbusy : s.c.cstate = .busy) (hdec : s.c.encSrc = none) (hwf : i.wellFormed = true)
    (hmode : i.readUnder s.c.mode = true) (htoken : tokenBytes i ≠ []) (hread : Readable s s.c.cur (tokenBytes i)) :
    step s = exec i s := by
  obtain ⟨rest, hwindow⟩ := tokenWindow_of_readable hread (tokenBytes_length_le i)
  exact step_of_decoded hbusy hdec (by rw [hwindow, decodeToken_tokenBytes hwf hmode htoken])

/-- R66, R109, R116: when the readable bytes end at the limit before the token does, the step raises there. -/
theorem step_truncated {k : Nat} (hbusy : s.c.cstate = .busy) (hdec : s.c.encSrc = none)
    (hread : Readable s s.c.cur bytes) (hlimit : limit s ≤ s.c.cur + bytes.length)
    (herror : decodeToken s.c.mode bytes = .error (.needByte k)) :
    step s = .next (takeException .codec (.truncated (s.c.cur + k)) s) := by
  obtain ⟨hlength, hk⟩ := decodeToken_error herror
  have hwindow := tokenWindow_at_limit hread (by omega) hlimit
  rw [step_of_missing hbusy hdec (by rw [hwindow, herror]), if_pos (by omega)]

/-- Every next state of a decoder step: a token whose bytes are readable, or TruncatedInputError at the first byte
that is not (R66, R116). -/
theorem step_decoding_next (hbusy : s.c.cstate = .busy) (hdec : s.c.encSrc = none) (h : step s = .next t) :
    (∃ i, i.wellFormed = true ∧ i.readUnder s.c.mode = true ∧ tokenBytes i ≠ [] ∧
        Readable s s.c.cur (tokenBytes i) ∧ exec i s = .next t) ∨
      ∃ bytes k, Readable s s.c.cur bytes ∧ decodeToken s.c.mode bytes = .error (.needByte k) ∧
        limit s ≤ s.c.cur + bytes.length ∧ t = takeException .codec (.truncated (s.c.cur + k)) s := by
  have hread := readable_tokenWindow s
  cases hdecode : decodeToken s.c.mode (tokenWindow s) with
  | ok x =>
    obtain ⟨i, rest⟩ := x
    rw [step_of_decoded hbusy hdec hdecode] at h
    obtain ⟨hwf, hmode, hbytes⟩ := decodeToken_ok hdecode
    rw [hbytes] at hread
    exact .inl ⟨i, hwf, hmode, tokenBytes_ne_nil hdecode, (readable_append.1 hread).1, h⟩
  | error e =>
    obtain ⟨k⟩ := e
    obtain ⟨hlength, -⟩ := decodeToken_error hdecode
    rw [step_of_missing hbusy hdec hdecode] at h
    split at h
    · rename_i hlimit
      cases h
      exact .inr ⟨_, k, hread, hdecode, by omega, rfl⟩
    · cases h

/-! ## What a token whose bytes are readable does -/

/-- What a token emits (R68 to R70). -/
def emitted : Instr → List Byte
  | .tog v none => [v]
  | .tog v (some c) => List.replicate (c.toNat + 1) v
  | .rep v c => List.replicate (c.toNat + 1) v
  | .lit v => [v]
  | _ => []

/-- MODE after a token (R67 to R70). -/
def modeAfter (m : Mode) : Instr → Mode
  | .tog _ none => .literalMode
  | .tog _ (some _) => .repeatMode
  | _ => m

/-- A token other than END passes its bytes and appends what it emits (R68 to R70). -/
def advanced (i : Instr) (s : State) : State :=
  { s with c := { s.c with
      mode := modeAfter s.c.mode i, cur := s.c.cur + (tokenBytes i).length, out := s.c.out ++ emitted i } }

/-- R67 to R70: a token whose bytes are readable ends the run or advances it. -/
theorem exec_readable_token (htoken : tokenBytes i ≠ []) (hread : Readable s s.c.cur (tokenBytes i)) :
    exec i s = .next (if i = .endTok then setCState .done s else advanced i s) := by
  have hlimit := hread.le_limit htoken
  rcases token_cases htoken with rfl | ⟨v, rfl⟩ | ⟨v, c, rfl⟩ | ⟨v, c, rfl⟩ | ⟨v, rfl⟩
  · exact exec_endTok s
  · rw [exec_tog, execTog_toLiteral v hlimit]; rfl
  · rw [exec_tog, execTog_toRepeat v c hlimit]; rfl
  · rw [exec_rep, execRep_readable v c hlimit]; rfl
  · rw [exec_lit]; rfl

end Sys2Proof.Machine
end

section
/-! The rules of the decoder step (R66, R71, R74). -/

namespace Sys2Proof.Machine

/-- Settles O6: the token window starts with the token's bytes. -/
theorem stepRunsTheTokenAtTheCursor : Obligations.StepRunsTheTokenAtTheCursor :=
  fun _ _ hbusy hdec hwf hmode htoken hread => step_token hbusy hdec hwf hmode htoken hread

/-- Settles O12: the decoder asks for the byte just past the readable ones, which are none, one or two. -/
theorem decodeStepRaisesAtTheLimit : Obligations.DecodeStepRaisesAtTheLimit := by
  intro s hbusy hdec
  refine ⟨fun hlimit => ?_, fun t hcur ht hend hother hlimit => ?_, fun v hnext htog hv hmode hlimit => ?_⟩
  · exact step_truncated hbusy hdec (readable_nil s _) hlimit rfl
  · refine step_truncated hbusy hdec (readable_cons.2 ⟨⟨hcur, ht⟩, readable_nil s _⟩) hlimit ?_
    rw [decodeToken_cons, if_neg (show t ≠ Config.endToken from hend)]
    split
    · rfl
    · rename_i hvalue
      rw [hother.resolve_left hvalue]
      rfl
  · have hvalue := readable_cons.2 ⟨⟨hnext, hv⟩, readable_nil s _⟩
    refine step_truncated hbusy hdec (readable_cons.2 ⟨⟨by omega, htog⟩, hvalue⟩) hlimit ?_
    rw [hmode]
    rfl

/-- Settles O21: a token that is not END passes its one to three readable bytes. -/
theorem decodeStepMovesTheCursorForward : Obligations.DecodeStepMovesTheCursorForward := by
  intro s t hbusy hdec hstep hstill
  rcases step_decoding_next hbusy hdec hstep with ⟨i, _, _, htoken, hread, hexec⟩ | ⟨_, _, _, _, _, rfl⟩
  · rw [exec_readable_token htoken hread] at hexec
    cases hexec
    split at hstill
    · cases hstill
    · rename_i hend
      rw [if_neg hend]
      have hpos := List.length_pos_iff.2 htoken
      exact ⟨Nat.lt_add_of_pos_right hpos, Nat.add_le_add_left (tokenBytes_length_le i) _, hread.le_limit htoken⟩
  · cases hstill

/-- Settles O22: both machines read the same token, or miss the same byte. -/
theorem decodeStepReadsOnlyItsRange : Obligations.DecodeStepReadsOnlyItsRange := by
  intro s s' t hbusy hdec hc hlimit hmem hstep
  have hbusy' : s'.c.cstate = .busy := by rw [hc, hbusy]
  have hdec' : s'.c.encSrc = none := by rw [hc, hdec]
  rcases step_decoding_next hbusy hdec hstep with ⟨i, hwf, hmode, htoken, hread, hexec⟩ |
    ⟨bytes, k, hread, herror, hend, rfl⟩
  · have hread' : Readable s' s'.c.cur (tokenBytes i) := by
      rw [hc]
      exact hread.congr hlimit hmem
    rw [exec_readable_token htoken hread] at hexec
    cases hexec
    refine ⟨_, (step_token hbusy' hdec' hwf (by rwa [hc]) htoken hread').trans (exec_readable_token htoken hread'), ?_⟩
    split <;> simp [advanced, hc]
  · have hread' : Readable s' s'.c.cur bytes := by
      rw [hc]
      exact hread.congr hlimit hmem
    refine ⟨_, step_truncated hbusy' hdec' hread' (by rwa [hlimit, hc]) (by rwa [hc]), ?_⟩
    rw [takeException_codec_c, takeException_codec_c, hc]

end Sys2Proof.Machine
end

section
/-! SUPPORT. A whole DEC (R71, R72): the closed form taken token by token, and the run it is the closed form of. -/

namespace Sys2Proof.Machine

variable {s t u : State} {i : Instr} {m : Mode} {bytes rest : List Byte} {later : List HostMove}

/-! ## The closed form -/

theorem decodeRun_end (m : Mode) (a : Nat) (out rest : List Byte) :
    decodeRun m a out (Config.endToken :: rest) = .ended out a m := by
  rw [decodeRun.eq_def]
  exact if_pos rfl

theorem decodeRun_rep {v : Byte} (hv : Instr.plainValue v = true) (c : Byte) (a : Nat) (out rest : List Byte) :
    decodeRun .repeatMode a out (v :: c :: rest) =
      decodeRun .repeatMode (a + 2) (out ++ List.replicate (c.toNat + 1) v) rest := by
  obtain ⟨hend, htog⟩ := (plainValue_iff v).1 hv
  rw [decodeRun.eq_def]
  exact (if_neg hend).trans (if_neg htog)

theorem decodeRun_lit {v : Byte} (hv : Instr.plainValue v = true) (a : Nat) (out rest : List Byte) :
    decodeRun .literalMode a out (v :: rest) = decodeRun .literalMode (a + 1) (out ++ [v]) rest := by
  obtain ⟨hend, htog⟩ := (plainValue_iff v).1 hv
  rw [decodeRun.eq_def]
  exact (if_neg hend).trans (if_neg htog)

theorem decodeRun_toLiteral (v : Byte) (a : Nat) (out rest : List Byte) :
    decodeRun .repeatMode a out (Config.toggleToken :: v :: rest) =
      decodeRun .literalMode (a + 2) (out ++ [v]) rest := rfl

theorem decodeRun_toRepeat (v c : Byte) (a : Nat) (out rest : List Byte) :
    decodeRun .literalMode a out (Config.toggleToken :: v :: c :: rest) =
      decodeRun .repeatMode (a + 3) (out ++ List.replicate (c.toNat + 1) v) rest := rfl

/-- R72: the closed form passes a token other than END as the machine does. -/
theorem decodeRun_token (hwf : i.wellFormed = true) (hmode : i.readUnder m = true) (htoken : tokenBytes i ≠ [])
    (hend : i ≠ .endTok) (a : Nat) (out rest : List Byte) :
    decodeRun m a out (tokenBytes i ++ rest) =
      decodeRun (modeAfter m i) (a + (tokenBytes i).length) (out ++ emitted i) rest := by
  rcases token_cases htoken with rfl | ⟨v, rfl⟩ | ⟨v, c, rfl⟩ | ⟨v, c, rfl⟩ | ⟨v, rfl⟩
  · exact absurd rfl hend
  · obtain rfl : m = .repeatMode := by simpa [Instr.readUnder] using hmode
    exact decodeRun_toLiteral v a out rest
  · obtain rfl : m = .literalMode := by simpa [Instr.readUnder] using hmode
    exact decodeRun_toRepeat v c a out rest
  · obtain rfl : m = .repeatMode := by simpa [Instr.readUnder] using hmode
    exact decodeRun_rep hwf c a out rest
  · obtain rfl : m = .literalMode := by simpa [Instr.readUnder] using hmode
    exact decodeRun_lit hwf a out rest

/-- R72: where the decoder misses a byte, the closed form ends. -/
theorem decodeRun_truncated {k : Nat} (h : decodeToken m bytes = .error (.needByte k)) (a : Nat) (out : List Byte) :
    decodeRun m a out bytes = .truncated (a + k) := by
  cases bytes with
  | nil => cases h; rfl
  | cons b bytes =>
    rw [decodeToken_cons] at h
    split at h
    · cases h
    rename_i hend
    split at h
    · rename_i htog
      subst htog
      match m, bytes with
      | .repeatMode, [] | .literalMode, [] | .literalMode, [_] => cases h; rfl
      | .repeatMode, _ :: _ | .literalMode, _ :: _ :: _ => cases h
    · rename_i htog
      match m, bytes with
      | .repeatMode, [] =>
        cases h
        rw [decodeRun.eq_def]
        exact (if_neg hend).trans (if_neg htog)
      | .literalMode, _ | .repeatMode, _ :: _ => cases h

/-! ## Stretches of a codec run -/

/-- `n` steps of a codec run lead from `s` to `t`: nothing outside unit C changes. -/
structure CodecRun (n : Nat) (s t : State) : Prop where
  runs : run n s = .next t
  cfg : t.cfg = s.cfg
  player : t.p = s.p
  mem : t.mem = s.mem
  host : t.host = s.host

/-- One step that writes unit C alone, then the rest of the run. -/
theorem CodecRun.after_step {n : Nat} {c : UnitC} (hstep : step s = .next { s with c := c })
    (h : CodecRun n { s with c := c } t) : CodecRun (n + 1) s t where
  runs := (run_succ hstep n).trans h.runs
  cfg := h.cfg
  player := h.player
  mem := h.mem
  host := h.host

theorem CodecRun.refl (s : State) : CodecRun 0 s s := ⟨run_zero s, rfl, rfl, rfl, rfl⟩

/-- The host's operation that opened a run, then the run. -/
theorem CodecRun.after_opening {n : Nat} {c : UnitC} (hstep : step s = .next { s with c := c, host := later })
    (h : CodecRun n { s with c := c, host := later } t) :
    run (n + 1) s = .next t ∧ t.cfg = s.cfg ∧ t.p = s.p ∧ t.mem = s.mem ∧ t.host = later :=
  ⟨(run_succ hstep n).trans h.runs, h.cfg, h.player, h.mem, h.host⟩

/-! ## The run of a DEC -/

/-- Unit C as a DEC that started from `c` leaves it (R67, R72, R113). -/
def decodedTo (c d : UnitC) : DecodeResult → Prop
  | .ended out cur mode => d = { c with mode, cur, cstate := .done, out }
  | .truncated a => d.cstate = .fault ∧ d.ccause = 3 ∧ d.ckind = 0 ∧ d.cinfo = a

/-- What a run leaves does not depend on MODE, CUR and OUT as it finds them. -/
theorem decodedTo_of_advanced {d : UnitC} {r : DecodeResult} (h : decodedTo (advanced i s).c d r) :
    decodedTo s.c d r := by
  cases r with
  | ended | truncated => exact h

/-- R71, R72: over readable bytes a running DEC comes to its closed form, one token a step. It may ask for a byte past
them only at the limit. -/
theorem dec_follows_decodeRun (hbusy : s.c.cstate = .busy) (hdec : s.c.encSrc = none)
    (hread : Readable s s.c.cur bytes)
    (hlimit : ∀ a, decodeRun s.c.mode s.c.cur s.c.out bytes = .truncated a → limit s ≤ s.c.cur + bytes.length) :
    ∃ n t, n ≤ bytes.length + 1 ∧ CodecRun n s t ∧
      decodedTo s.c t.c (decodeRun s.c.mode s.c.cur s.c.out bytes) := by
  induction hlength : bytes.length using Nat.strong_induction_on generalizing s bytes with
  | _ length ih =>
  subst hlength
  cases hdecode : decodeToken s.c.mode bytes with
  | error e =>
    obtain ⟨k⟩ := e
    have hresult := decodeRun_truncated hdecode s.c.cur s.c.out
    have hstep := step_truncated hbusy hdec hread (hlimit _ hresult) hdecode
    rw [hresult]
    exact ⟨1, _, Nat.le_add_left _ _, .after_step hstep (.refl _), rfl, rfl, rfl, rfl⟩
  | ok x =>
    obtain ⟨i, rest⟩ := x
    obtain ⟨hwf, hmode, rfl⟩ := decodeToken_ok hdecode
    have htoken : tokenBytes i ≠ [] := tokenBytes_ne_nil hdecode
    obtain ⟨htokenRead, hrestRead⟩ := readable_append.1 hread
    have hstep := (step_token hbusy hdec hwf hmode htoken htokenRead).trans (exec_readable_token htoken htokenRead)
    by_cases hend : i = .endTok
    · subst hend
      rw [tokenBytes_endTok, List.singleton_append, decodeRun_end]
      exact ⟨1, _, Nat.le_add_left _ _, .after_step hstep (.refl _), rfl⟩
    · rw [if_neg hend] at hstep
      rw [decodeRun_token hwf hmode htoken hend] at hlimit ⊢
      have hpos := List.length_pos_iff.2 htoken
      rw [List.length_append] at hlimit ih ⊢
      obtain ⟨n, t, hn, hrun, ht⟩ := ih rest.length (by omega) (s := advanced i s) hbusy hdec hrestRead
        (fun a ha => by rw [← Nat.add_assoc] at hlimit; exact hlimit a ha) rfl
      exact ⟨n + 1, t, by omega, .after_step hstep hrun, decodedTo_of_advanced ht⟩

/-- R65, R71, R72: a DEC from its acceptance to its end. -/
theorem dec_run {off : Addr} {bound : Extent} (haccepting : accepting s)
    (hhost : s.host = moveOf (.dec off bound) :: later)
    (hread : Readable (opened off.toNat bound.toNat none s) off.toNat bytes)
    (hlimit : ∀ a, decodeRun .repeatMode off.toNat [] bytes = .truncated a →
      min bound.toNat s.cfg.imemSize ≤ off.toNat + bytes.length) :
    ∃ n t, n ≤ bytes.length + 1 ∧
      (run (n + 1) s = .next t ∧ t.cfg = s.cfg ∧ t.p = s.p ∧ t.mem = s.mem ∧ t.host = later) ∧
      decodedTo (opened off.toNat bound.toNat none s).c t.c (decodeRun .repeatMode off.toNat [] bytes) := by
  have hstep : step s = .next (opened off.toNat bound.toNat none { s with host := later }) :=
    (step_operation (accepting_ne_busy haccepting) hhost).trans
      (execDec_accepted off bound (s := { s with host := later }) haccepting)
  obtain ⟨n, t, hn, hrun, ht⟩ := dec_follows_decodeRun (bytes := bytes)
    (s := opened off.toNat bound.toNat none { s with host := later }) rfl rfl hread hlimit
  exact ⟨n, t, hn, hrun.after_opening hstep, ht⟩

end Sys2Proof.Machine
end

section
/-! The closed form of a DEC (R72). -/

namespace Sys2Proof.Machine

/-- Settles O23: the run of the DEC over the bytes up to its limit. -/
theorem decRunFollowsItsClosedForm : Obligations.DecRunFollowsItsClosedForm := by
  intro s off bound bytes later haccepting hhost hloaded
  obtain ⟨hlength, -⟩ := Memory.readRange_spec hloaded
  obtain ⟨n, t, hn, ⟨hrun, hcfg, hp, hmem, hmoves⟩, ht⟩ := dec_run haccepting hhost
    (readable_of_readRange (s := opened off.toNat bound.toNat none s) hloaded) (fun _ _ => by omega)
  refine ⟨n, t, by omega, hrun, hcfg, hp, hmem, hmoves, ?_⟩
  revert ht
  cases decodeRun .repeatMode off.toNat [] bytes <;> exact id

end Sys2Proof.Machine
end

section
/-! SUPPORT. The input check of an ENC (R81, R86): what a clean stretch of the input is, and the first address that is
not. -/

namespace Sys2Proof.Machine

variable {s : State} {a k : Nat} {v : Byte}

theorem reserved_eq_true_iff (v : Byte) : reserved v = true ↔ v = 0xFF ∨ v = 0xFC := by
  rw [reserved, Bool.or_eq_true, decide_eq_true_eq, decide_eq_true_eq]
  rfl

theorem reserved_eq_false_iff (v : Byte) : reserved v = false ↔ v ≠ 0xFF ∧ v ≠ 0xFC := by
  rw [← Bool.not_eq_true, reserved_eq_true_iff, not_or]

theorem plainValue_of_not_reserved (h : reserved v = false) : Instr.plainValue v = true :=
  (plainValue_iff v).2 ((reserved_eq_false_iff v).1 h)

/-- The check goes on past the addresses it found clean (R81). -/
theorem checkInput_past_clean (h : checkInput s a k = .clean) (n : Nat) :
    checkInput s a (k + n) = checkInput s (a + k) n := by
  induction k generalizing a with
  | zero => rw [Nat.zero_add]; rfl
  | succ k ih =>
    rw [checkInput] at h
    rw [Nat.add_right_comm, checkInput]
    cases hf : fetch s a with
    | beyond | unloaded => rw [hf] at h; cases h
    | byte v =>
      rw [hf] at h
      dsimp only at h ⊢
      split at h
      · cases h
      · rename_i hv
        rw [if_neg hv, ih h, Nat.add_right_comm, Nat.add_assoc]

theorem checkInput_beyond (h : limit s ≤ a) (n : Nat) : checkInput s a (n + 1) = .raises (.truncated a) := by
  rw [checkInput, fetch_beyond h]

theorem checkInput_reserved (h : a < limit s) (hv : Memory.read s.mem.imem a = some v) (hreserved : reserved v = true)
    (n : Nat) : checkInput s a (n + 1) = .raises (.reservedValue a) := by
  rw [checkInput, fetch_byte h hv]
  exact if_pos hreserved

/-- Clean addresses pass the check of the run that has been opened over them. -/
theorem checkInput_opened {cur bound n : Nat} {encSrc : Option Nat} (h : cleanBetween s a (a + n))
    (hbound : a + n ≤ bound) : checkInput (opened cur bound encSrc s) a n = .clean := by
  refine checkInput_clean.2 fun j hj hend => ?_
  obtain ⟨hsize, v, hv, hvalue⟩ := h j hj hend
  exact ⟨Nat.lt_min.2 ⟨hend.trans_le hbound, hsize⟩, v, hv, (reserved_eq_false_iff v).2 hvalue⟩

/-! ## The three ways an accepted ENC can go -/

variable {src : Addr} {length : Extent}

theorem execEnc_clean (haccepting : accepting s)
    (h : checkInput (opened src.toNat (src.toNat + length.toNat) (some src.toNat) s) src.toNat length.toNat = .clean) :
    execEnc src length s = .next (opened src.toNat (src.toNat + length.toNat) (some src.toNat) s) := by
  rw [execEnc, if_pos (accepts_of_accepting haccepting)]
  simp only [openRun_eq_opened, h]

theorem execEnc_raises {e : Exc} (haccepting : accepting s)
    (h : checkInput (opened src.toNat (src.toNat + length.toNat) (some src.toNat) s) src.toNat length.toNat =
      .raises e) :
    execEnc src length s =
      .next (takeException .codec e (opened src.toNat (src.toNat + length.toNat) (some src.toNat) s)) := by
  rw [execEnc, if_pos (accepts_of_accepting haccepting)]
  simp only [openRun_eq_opened, h]

end Sys2Proof.Machine
end

section
/-! The rules of ENC (R81). -/

namespace Sys2Proof.Machine

/-- Settles O24: the check passes over a clean input. -/
theorem encOpensItsRunOnACleanInput : Obligations.EncOpensItsRunOnACleanInput :=
  fun _ _ _ haccepting hclean => execEnc_clean haccepting (checkInput_opened hclean (Nat.le_refl _))

/-- Settles O25: the check passes over the clean addresses and raises at the next one. -/
theorem encRaisesAtTheLowestOffender : Obligations.EncRaisesAtTheLowestOffender := by
  intro s src length a haccepting hsrc hend hclean
  obtain ⟨k, rfl⟩ := Nat.exists_eq_add_of_le hsrc
  obtain ⟨n, hn⟩ : ∃ n, length.toNat = k + (n + 1) := ⟨length.toNat - k - 1, by omega⟩
  have hpast := checkInput_past_clean (checkInput_opened (cur := src.toNat) (encSrc := some src.toNat) hclean
    (Nat.le_of_lt hend)) (n + 1)
  rw [← hn] at hpast
  constructor
  · intro hsize
    have hbeyond : limit (opened src.toNat (src.toNat + length.toNat) (some src.toNat) s) ≤ src.toNat + k :=
      (Nat.min_le_right _ _).trans hsize
    exact execEnc_raises haccepting (hpast.trans (checkInput_beyond hbeyond n))
  · intro hsize hvalue
    obtain ⟨v, hv, hreserved⟩ : ∃ v, Memory.read s.mem.imem (src.toNat + k) = some v ∧ reserved v = true :=
      hvalue.elim (fun h => ⟨_, h, rfl⟩) (fun h => ⟨_, h, rfl⟩)
    have hinside : src.toNat + k < limit (opened src.toNat (src.toNat + length.toNat) (some src.toNat) s) :=
      Nat.lt_min.2 ⟨hend, hsize⟩
    exact execEnc_raises haccepting (hpast.trans (checkInput_reserved hinside hv hreserved n))

end Sys2Proof.Machine
end

section
/-! SUPPORT. What the encoder finds at CUR: the length of a run and of a stretch, and the encoder step that each of
them leads to (R82 to R84). -/

namespace Sys2Proof.Machine

variable {m : Memory} {a k n src bound : Nat}

/-! ## Counting -/

/-- How many of the `n` addresses from `a` on have a property before the first that has not: what both of R82's
lengths are. -/
def countWhile (p : Nat → Prop) [DecidablePred p] : Nat → Nat → Nat
  | _, 0 => 0
  | a, n + 1 => if p a then countWhile p (a + 1) n + 1 else 0

theorem countWhile_eq {p : Nat → Prop} [DecidablePred p] (hk : k ≤ n) (hbefore : ∀ j, j < k → p (a + j))
    (hstop : k = n ∨ ¬ p (a + k)) : countWhile p a n = k := by
  induction n generalizing a k with
  | zero => rw [Nat.le_zero.1 hk]; rfl
  | succ n ih =>
    rw [countWhile]
    cases k with
    | zero => exact if_neg (hstop.resolve_left (Nat.succ_ne_zero n).symm)
    | succ k =>
      rw [if_pos (show p a from hbefore 0 (Nat.zero_lt_succ k)), ih (Nat.le_of_succ_le_succ hk)]
      · intro j hj
        rw [Nat.add_assoc, Nat.add_comm 1]
        exact hbefore (j + 1) (Nat.succ_lt_succ hj)
      · rw [Nat.add_assoc, Nat.add_comm 1]
        exact hstop.imp Nat.succ.inj id

theorem countEqual_eq_countWhile (m : Memory) (v : Option Byte) (a n : Nat) :
    countEqual m v a n = countWhile (fun j => Memory.read m j = v) a n := by
  induction n generalizing a with
  | zero => rfl
  | succ n ih => rw [countEqual, countWhile, ih]

theorem countSingles_eq_countWhile (m : Memory) (src bound a n : Nat) :
    countSingles m src bound a n = countWhile (fun j => single m src bound j = true) a n := by
  induction n generalizing a with
  | zero => rfl
  | succ n ih => rw [countSingles, countWhile, ih]

/-- R82: a maximal run of `n` equal values has `runlen` `n`. -/
theorem runLength_eq {v : Option Byte} (hn : 1 ≤ n) (hbound : a + n ≤ bound)
    (hrun : ∀ k, k < n → Memory.read m (a + k) = v) (hstop : a + n = bound ∨ Memory.read m (a + n) ≠ v) :
    runLength m a bound = n := by
  have hhead : Memory.read m a = v := hrun 0 hn
  rw [runLength, countEqual_eq_countWhile, hhead]
  exact countWhile_eq (by omega) hrun (hstop.imp (by omega) id)

theorem single_iff (m : Memory) (src bound j : Nat) :
    single m src bound j = true ↔
      (j = src ∨ Memory.read m (j - 1) ≠ Memory.read m j) ∧
        (j = bound - 1 ∨ Memory.read m (j + 1) ≠ Memory.read m j) := by
  simp [single]

/-- R82: a single is a run of one. -/
theorem runLength_of_single (h : a < bound) (hsingle : single m src bound a = true) : runLength m a bound = 1 := by
  obtain ⟨-, hnext⟩ := (single_iff m src bound a).1 hsingle
  refine runLength_eq (Nat.le_refl 1) h (v := Memory.read m a) (fun k hk => ?_) (hnext.imp (by omega) id)
  rw [Nat.lt_one_iff.1 hk, Nat.add_zero]

/-- R82: a maximal stretch of `n` singles has `stretchlen` `n`. -/
theorem stretchLength_eq (hn : 1 ≤ n) (hbound : a + n ≤ bound)
    (hsingles : ∀ k, k < n → single m src bound (a + k) = true)
    (hstop : a + n = bound ∨ single m src bound (a + n) = false) : stretchLength m src bound a = n := by
  have hcount : countSingles m src bound a (bound - a) = n := by
    rw [countSingles_eq_countWhile]
    exact countWhile_eq (by omega) hsingles (hstop.imp (by omega) (by simp))
  rw [stretchLength, hcount, Nat.max_eq_right hn]

/-! ## The encoder step -/

variable {s : State} {v : Byte} {ws : List Byte}

/-- R83: at a maximal run the encoder takes the whole run. -/
theorem encStep_run (hn : 2 ≤ n) (hbound : s.c.cur + n ≤ s.c.bound)
    (hrun : ∀ k, k < n → Memory.read s.mem.imem (s.c.cur + k) = some v)
    (hstop : s.c.cur + n = s.c.bound ∨ Memory.read s.mem.imem (s.c.cur + n) ≠ some v) :
    encStep src s = .next (encRun v n s) := by
  have hlength : runLength s.mem.imem s.c.cur s.c.bound = n := runLength_eq (by omega) hbound hrun hstop
  have hhead : Memory.read s.mem.imem s.c.cur = some v := hrun 0 (by omega)
  rw [encStep, if_neg (by omega)]
  simp only [hlength, if_pos hn, Memory.readRange, hhead]
  rfl

/-- R84: at a maximal stretch of singles the encoder takes the whole stretch, in either mode. -/
theorem encStep_stretch (hne : ws ≠ []) (hbound : s.c.cur + ws.length ≤ s.c.bound)
    (hread : Memory.readRange s.mem.imem s.c.cur ws.length = some ws)
    (hsingles : ∀ k, k < ws.length → single s.mem.imem src s.c.bound (s.c.cur + k) = true)
    (hstop : s.c.cur + ws.length = s.c.bound ∨ single s.mem.imem src s.c.bound (s.c.cur + ws.length) = false) :
    encStep src s = .next (encStretch ws s) := by
  have hpos := List.length_pos_iff.2 hne
  have hone : ¬ 2 ≤ runLength s.mem.imem s.c.cur s.c.bound := by
    have hfirst : single s.mem.imem src s.c.bound s.c.cur = true := hsingles 0 hpos
    rw [runLength_of_single (by omega) hfirst]
    decide
  have hlength : stretchLength s.mem.imem src s.c.bound s.c.cur = ws.length :=
    stretchLength_eq hpos hbound hsingles hstop
  rw [encStep, if_neg (by omega)]
  simp only [if_neg hone, hlength, hread]

theorem encRun_eq (v : Byte) (n : Nat) (s : State) :
    encRun v n s = { s with c := { s.c with
      mode := .repeatMode, cur := s.c.cur + n, out := s.c.out ++ (toggleFor s.c.mode .repeatMode ++ chunks v n) } } :=
  rfl

/-- The mode a stretch of `m` singles met in a mode is emitted in (R84). -/
def modeOfStretch (threshold : Threshold) (mode : Mode) (m : Nat) : Mode :=
  if threshold.toNat ≤ m then .literalMode else mode

theorem encStretch_eq {mode : Mode} (hmode : mode = modeOfStretch s.cfg.threshold s.c.mode ws.length) :
    encStretch ws s = { s with c := { s.c with
      mode := mode, cur := s.c.cur + ws.length
      out := s.c.out ++ (toggleFor s.c.mode mode ++ stretchBody mode ws) } } := by
  subst hmode; rfl

theorem toggleFor_repeat (mode : Mode) : toggleFor mode .repeatMode = if mode = .literalMode then [0xFC] else [] := by
  cases mode <;> rfl

/-! ## The chunks of a run -/

/-- C2: a run of more than 256 copies starts with a full chunk. -/
theorem chunks_of_more (v : Byte) (h : 256 < n) : chunks v n = [v, 0xFF] ++ chunks v (n - 256) := by
  have hq : (n - 1) / 256 = (n - 256 - 1) / 256 + 1 := by omega
  have hrest : n - 256 * ((n - 256 - 1) / 256 + 1) - 1 = n - 256 - 256 * ((n - 256 - 1) / 256) - 1 := by omega
  simp only [chunks, Config.maxCopies_eq, hq, hrest]
  rw [List.replicate_succ, List.flatten_cons, List.append_assoc]
  rfl

/-- A run of at most 256 copies is one chunk. -/
theorem chunks_of_few (v : Byte) (h1 : 1 ≤ n) (h : n ≤ 256) : chunks v n = [v, BitVec.ofNat 8 (n - 1)] := by
  have hq : (n - 1) / 256 = 0 := by omega
  simp only [chunks, Config.maxCopies_eq, hq]
  rfl

theorem chunks_length (v : Byte) (n : Nat) : (chunks v n).length = 2 * ((n - 1) / 256) + 2 := by
  simp [chunks, List.length_flatten, Nat.mul_comm]

end Sys2Proof.Machine
end

section
/-! The rules of the encoder step (R82 to R84). -/

namespace Sys2Proof.Machine

/-- Settles O27: the run the encoder finds is the maximal one. -/
theorem encoderEmitsARunAsChunks : Obligations.EncoderEmitsARunAsChunks := by
  intro s src v n hbusy henc hn hbound hrun hstop
  rw [step_encoding hbusy henc, encStep_run hn hbound hrun hstop, encRun_eq, toggleFor_repeat]

/-- Settles O28: the stretch the encoder finds is the maximal one; from REPEAT mode, the threshold decides. -/
theorem encoderEmitsAStretch : Obligations.EncoderEmitsAStretch := by
  intro s src ws hbusy henc hmode hne hbound hread hsingles hstop
  have hstep : step s = .next (encStretch ws s) := by
    rw [step_encoding hbusy henc]
    exact encStep_stretch hne hbound hread (fun k hk => hsingles _ (by omega) (by omega)) hstop
  refine ⟨fun hlong => ?_, fun hshort => ?_⟩
  · rw [hstep, encStretch_eq (mode := .literalMode) (if_pos hlong).symm, hmode]
    rfl
  · have hout : toggleFor s.c.mode s.c.mode ++ stretchBody s.c.mode ws = ws.take 1 ++ [0x00] := by rw [hmode]; rfl
    rw [hstep, encStretch_eq (mode := s.c.mode) (if_neg (Nat.not_le.2 hshort)).symm, hout]

/-- Settles O29: the chunks on both sides of 256 copies. -/
theorem chunksFollowTheirRecurrence : Obligations.ChunksFollowTheirRecurrence :=
  fun v _ => ⟨chunks_of_more v, chunks_of_few v⟩

end Sys2Proof.Machine
end

section
/-! SUPPORT. The segments of an input (R80): the equation of each kind of segment, and the induction that takes an
input segment by segment. -/

namespace Sys2Proof.Machine

variable {v : Byte} {x ws : List Byte}

/-- The values `ws` are a maximal non-repeated stretch before `x`: each differs from the value after it, and `x` is
empty or starts with a repeated run (R80). -/
inductive IsStretch : List Byte → List Byte → Prop where
  | last {v : Byte} {x : List Byte} (hnext : x.head? ≠ some v) (hends : x = [] ∨ ∃ w y, x = w :: w :: y) :
      IsStretch [v] x
  | cons {v : Byte} {ws x : List Byte} (hnext : (ws ++ x).head? ≠ some v) (hrest : IsStretch ws x) :
      IsStretch (v :: ws) x

theorem IsStretch.ne_nil (h : IsStretch ws x) : ws ≠ [] := by
  cases h <;> exact List.cons_ne_nil _ _

theorem IsStretch.ends (h : IsStretch ws x) : x = [] ∨ ∃ w y, x = w :: w :: y := by
  induction h with
  | last _ hends => exact hends
  | cons _ _ ih => exact ih

/-- No value of a stretch is repeated by the next one. -/
theorem IsStretch.apart (h : IsStretch ws x) {k : Nat} (hk : k < ws.length) :
    (ws ++ x)[k + 1]? ≠ (ws ++ x)[k]? := by
  induction h generalizing k with
  | last hnext _ =>
    obtain rfl : k = 0 := Nat.lt_one_iff.1 hk
    simpa [List.head?_eq_getElem?] using hnext
  | cons hnext _ ih =>
    cases k with
    | zero => simpa [List.head?_eq_getElem?] using hnext
    | succ k => simpa using ih (Nat.lt_of_succ_lt_succ hk)

/-! ## The maximal runs -/

/-- Any value starts a maximal run. -/
theorem exists_run (v : Byte) (x : List Byte) :
    ∃ n y, v :: x = List.replicate (n + 1) v ++ y ∧ y.head? ≠ some v := by
  induction x with
  | nil => exact ⟨0, [], rfl, by simp⟩
  | cons w x ih =>
    by_cases hw : w = v
    · obtain ⟨n, y, hy, hnext⟩ := ih
      exact ⟨n + 1, y, by rw [hw, hy]; rfl, hnext⟩
    · exact ⟨0, w :: x, rfl, by simpa using hw⟩

theorem maximalRuns_cons (v : Byte) (x : List Byte) : ∃ n runs, maximalRuns (v :: x) = (v, n) :: runs := by
  rw [maximalRuns]
  split
  · exact ⟨_, _, rfl⟩
  · split
    · rename_i hv
      exact ⟨_, _, by rw [hv]⟩
    · exact ⟨_, _, rfl⟩

theorem maximalRuns_replicate (hnext : x.head? ≠ some v) (n : Nat) :
    maximalRuns (List.replicate (n + 1) v ++ x) = (v, n + 1) :: maximalRuns x := by
  induction n with
  | zero =>
    cases x with
    | nil => rfl
    | cons w x =>
      obtain ⟨n, runs, hruns⟩ := maximalRuns_cons w x
      have hne : ¬ v = w := fun h => hnext (by rw [h]; rfl)
      rw [List.replicate_one, List.singleton_append, maximalRuns, hruns]
      simp only [if_neg hne]
  | succ n ih =>
    rw [List.replicate_succ, List.cons_append, maximalRuns, ih]
    exact if_pos rfl

/-! ## The segments -/

theorem segments_replicate (hnext : x.head? ≠ some v) (n : Nat) :
    segments (List.replicate (n + 1) v ++ x) = addRun (v, n + 1) (segments x) := by
  rw [segments, maximalRuns_replicate hnext]
  rfl

theorem segments_run {n : Nat} (hn : 2 ≤ n) (hnext : x.head? ≠ some v) :
    segments (List.replicate n v ++ x) = .run v n :: segments x := by
  obtain ⟨n, rfl⟩ : ∃ k, n = k + 1 := ⟨n - 1, by omega⟩
  rw [segments_replicate hnext]
  exact if_pos hn

theorem segments_single (hnext : x.head? ≠ some v) : segments (v :: x) = addRun (v, 1) (segments x) :=
  segments_replicate hnext 0

/-- Two equal values start a repeated run. -/
theorem segments_repeated (w : Byte) (y : List Byte) : ∃ n later, segments (w :: w :: y) = .run w n :: later := by
  obtain ⟨n, z, hz, hnext⟩ := exists_run w y
  have hrun : w :: w :: y = List.replicate (n + 2) w ++ z := by rw [hz]; rfl
  exact ⟨_, _, by rw [hrun, segments_run (by omega) hnext]⟩

theorem segments_stretch (h : IsStretch ws x) : segments (ws ++ x) = .stretch ws :: segments x := by
  induction h with
  | last hnext hends =>
    rw [List.singleton_append, segments_single hnext]
    rcases hends with rfl | ⟨w, y, rfl⟩
    · rfl
    · obtain ⟨n, later, hrun⟩ := segments_repeated w y
      rw [hrun]
      rfl
  | cons hnext _ ih =>
    rw [List.cons_append, segments_single hnext, ih]
    rfl

/-- A value that the next one does not repeat starts a maximal stretch. -/
theorem exists_stretch (hnext : x.head? ≠ some v) : ∃ ws y, v :: x = ws ++ y ∧ IsStretch ws y := by
  induction x generalizing v with
  | nil => exact ⟨[v], [], rfl, .last hnext (.inl rfl)⟩
  | cons w x ih =>
    by_cases hw : x.head? = some w
    · obtain ⟨y, rfl⟩ := List.head?_eq_some_iff.1 hw
      exact ⟨[v], _, rfl, .last hnext (.inr ⟨w, y, rfl⟩)⟩
    · obtain ⟨ws, y, hsplit, hstretch⟩ := ih hw
      exact ⟨v :: ws, y, by rw [hsplit, List.cons_append], .cons (hsplit ▸ hnext) hstretch⟩

/-- R80: every input is its segments, one after another. -/
theorem segments_induction {motive : List Byte → Prop} (nil : motive [])
    (run : ∀ v n x, 2 ≤ n → x.head? ≠ some v → motive x → motive (List.replicate n v ++ x))
    (stretch : ∀ ws x, IsStretch ws x → motive x → motive (ws ++ x)) (x : List Byte) : motive x := by
  induction hlength : x.length using Nat.strong_induction_on generalizing x with
  | _ length ih =>
  subst hlength
  cases x with
  | nil => exact nil
  | cons v x =>
    obtain ⟨n, y, hrun, hnext⟩ := exists_run v x
    cases n with
    | zero =>
      obtain rfl : x = y := (List.cons.inj hrun).2
      obtain ⟨ws, y, hsplit, hstretch⟩ := exists_stretch hnext
      rw [hsplit] at ih ⊢
      have hpos := List.length_pos_iff.2 hstretch.ne_nil
      exact stretch ws y hstretch (ih y.length (by rw [List.length_append]; omega) y rfl)
    | succ n =>
      rw [hrun] at ih ⊢
      have hlt : y.length < (List.replicate (n + 1 + 1) v ++ y).length := by
        rw [List.length_append, List.length_replicate]
        omega
      exact run v (n + 1 + 1) y (by omega) hnext (ih y.length hlt y rfl)

/-! ## The encoder's closed form, segment by segment (R87) -/

theorem encodeSegments_run (threshold : Threshold) (mode : Mode) (v : Byte) (n : Nat) (later : List Segment) :
    encodeSegments threshold mode (.run v n :: later) =
      toggleFor mode .repeatMode ++ chunks v n ++ encodeSegments threshold .repeatMode later := by
  cases mode <;> rfl

theorem encodeSegments_stretch (threshold : Threshold) (mode : Mode) (ws : List Byte) (later : List Segment) :
    encodeSegments threshold mode (.stretch ws :: later) =
      toggleFor mode (modeOfStretch threshold mode ws.length) ++
        stretchBody (modeOfStretch threshold mode ws.length) ws ++
          encodeSegments threshold (modeOfStretch threshold mode ws.length) later := by
  cases mode with
  | literalMode => rw [modeOfStretch, ite_self]; rfl
  | repeatMode =>
    rw [encodeSegments, modeOfStretch]
    split <;> rfl

end Sys2Proof.Machine
end

section
/-! SUPPORT. A whole ENC (R82 to R87, R91): an encoder step for every segment of the input, then the end. -/

namespace Sys2Proof.Machine

variable {s t : State} {src n : Nat} {v : Byte} {x ws : List Byte}

/-- A range is read where every one of its bytes is. -/
theorem Memory.readRange_of_read {m : Memory} {a : Nat} {bytes : List Byte}
    (h : ∀ k, k < bytes.length → Memory.read m (a + k) = bytes[k]?) :
    Memory.readRange m a bytes.length = some bytes := by
  induction bytes generalizing a with
  | nil => rfl
  | cons b bytes ih =>
    have hfirst : Memory.read m a = some b := h 0 (Nat.zero_lt_succ _)
    have hrest : Memory.readRange m (a + 1) bytes.length = some bytes := ih fun k hk => by
      rw [Nat.add_assoc, Nat.add_comm 1, h (k + 1) (Nat.succ_lt_succ hk), List.getElem?_cons_succ]
    rw [List.length_cons, Memory.readRange, hfirst, hrest]

/-- An ENC runs with the values `x` still to encode: they end at BOUND, and CUR stands at the start of the input or
after another value, so at the start of a segment (R80, R82). -/
structure Encoding (src : Nat) (s : State) (x : List Byte) : Prop where
  busy : s.c.cstate = .busy
  encSrc : s.c.encSrc = some src
  bound : s.c.cur + x.length = s.c.bound
  read : Readable s s.c.cur x
  start : s.c.cur = src ∨ x = [] ∨ Memory.read s.mem.imem (s.c.cur - 1) ≠ Memory.read s.mem.imem s.c.cur

/-- The value at an address of the input, by its place in it. -/
theorem Encoding.read_eq (h : Encoding src s x) {k : Nat} (hk : k < x.length) :
    Memory.read s.mem.imem (s.c.cur + k) = x[k]? :=
  (h.read k hk).2

/-- R82: the values of a stretch are singles. -/
theorem Encoding.single_of_stretch (h : Encoding src s (ws ++ x)) (hstretch : IsStretch ws x) {k : Nat}
    (hk : k < ws.length) : single s.mem.imem src s.c.bound (s.c.cur + k) = true := by
  have hlength := h.bound
  rw [List.length_append] at hlength
  have hk' : k < (ws ++ x).length := by rw [List.length_append]; omega
  refine (single_iff _ _ _ _).2 ⟨?_, ?_⟩
  · cases k with
    | zero =>
      refine h.start.imp id fun hstart => hstart.resolve_left fun hnil => ?_
      exact hstretch.ne_nil (List.append_eq_nil_iff.1 hnil).1
    | succ k =>
      rw [← Nat.add_assoc, Nat.add_sub_cancel, Nat.add_assoc, h.read_eq hk', h.read_eq (Nat.lt_of_succ_lt hk')]
      exact .inr (hstretch.apart (Nat.lt_of_succ_lt hk)).symm
  · by_cases hlast : k + 1 < (ws ++ x).length
    · rw [Nat.add_assoc, h.read_eq hlast, h.read_eq hk']
      exact .inr (hstretch.apart hk)
    · rw [List.length_append] at hlast
      exact .inl (by omega)

/-- R82: a stretch ends at BOUND or before a repeated run, whose first value is no single. -/
theorem Encoding.stretch_stops (h : Encoding src s (ws ++ x)) (hstretch : IsStretch ws x) :
    s.c.cur + ws.length = s.c.bound ∨ single s.mem.imem src s.c.bound (s.c.cur + ws.length) = false := by
  have hlength := h.bound
  rcases hstretch.ends with rfl | ⟨w, y, rfl⟩
  · exact .inl (by simpa using hlength)
  · rw [List.length_append, List.length_cons, List.length_cons] at hlength
    have hfirst : Memory.read s.mem.imem (s.c.cur + ws.length) = some w := by
      rw [h.read_eq (by simp)]
      simp
    have hsecond : Memory.read s.mem.imem (s.c.cur + ws.length + 1) = some w := by
      rw [Nat.add_assoc, h.read_eq (by simp)]
      simp
    refine .inr (Bool.eq_false_iff.2 fun hsingle => ?_)
    obtain ⟨-, hnext⟩ := (single_iff _ _ _ _).1 hsingle
    rcases hnext with hend | hnext
    · omega
    · exact hnext (hsecond.trans hfirst.symm)

/-- R83: at a repeated run the step encodes it, and the rest of the input is left. -/
theorem Encoding.step_run (h : Encoding src s (List.replicate n v ++ x)) (hn : 2 ≤ n) (hnext : x.head? ≠ some v) :
    step s = .next (encRun v n s) ∧ Encoding src (encRun v n s) x := by
  have hlength := h.bound
  rw [List.length_append, List.length_replicate] at hlength
  have hrun (k : Nat) (hk : k < n) : Memory.read s.mem.imem (s.c.cur + k) = some v := by
    rw [h.read_eq (by rw [List.length_append, List.length_replicate]; omega),
      List.getElem?_append_left (by rwa [List.length_replicate]), List.getElem?_replicate_of_lt hk]
  have hrest : Readable s (s.c.cur + n) x := by simpa using (readable_append.1 h.read).2
  have hafter : x = [] ∨ Memory.read s.mem.imem (s.c.cur + n) ≠ some v := by
    cases x with
    | nil => exact .inl rfl
    | cons w y =>
      obtain ⟨⟨-, hw⟩, -⟩ := readable_cons.1 hrest
      exact .inr (by rwa [hw])
  refine ⟨(step_encoding h.busy h.encSrc).trans (encStep_run hn (by omega) hrun ?_), ?_⟩
  · exact hafter.imp (fun hnil => by rw [hnil, List.length_nil] at hlength; omega) id
  · refine ⟨h.busy, h.encSrc, (Nat.add_assoc _ _ _).trans hlength, hrest, .inr (hafter.imp id fun hne => ?_)⟩
    have hlast : Memory.read s.mem.imem (s.c.cur + n - 1) = some v := by
      rw [Nat.add_sub_assoc (by omega)]
      exact hrun (n - 1) (by omega)
    exact fun heq => hne (heq.symm.trans hlast)

/-- R84: at a stretch the step encodes it, and the rest of the input is left. -/
theorem Encoding.step_stretch (h : Encoding src s (ws ++ x)) (hstretch : IsStretch ws x) :
    step s = .next (encStretch ws s) ∧ Encoding src (encStretch ws s) x := by
  have hlength := h.bound
  rw [List.length_append] at hlength
  have hpos := List.length_pos_iff.2 hstretch.ne_nil
  obtain ⟨hws, hrest⟩ := readable_append.1 h.read
  have hread := Memory.readRange_of_read fun k hk => (hws k hk).2
  refine ⟨(step_encoding h.busy h.encSrc).trans (encStep_stretch hstretch.ne_nil (by omega) hread
    (fun k hk => h.single_of_stretch hstretch hk) (h.stretch_stops hstretch)), ?_⟩
  refine ⟨h.busy, h.encSrc, (Nat.add_assoc _ _ _).trans hlength, hrest, .inr ?_⟩
  by_cases hnil : x = []
  · exact .inl hnil
  · have hx := List.length_pos_iff.2 hnil
    have hapart := hstretch.apart (k := ws.length - 1) (by omega)
    rw [← h.read_eq (by rw [List.length_append]; omega), ← h.read_eq (by rw [List.length_append]; omega),
      Nat.sub_add_cancel hpos, ← Nat.add_sub_assoc hpos] at hapart
    exact .inr hapart.symm

/-- Unit C at the end of an ENC that started from `c`, the values `x` encoded under a threshold (R85, R87). -/
structure Encoded (threshold : Threshold) (x : List Byte) (c d : UnitC) : Prop where
  done : d.cstate = .done
  out : d.out = c.out ++ encodeSegments threshold c.mode (segments x)
  cur : d.cur = c.bound
  bound : d.bound = c.bound

/-- R87, R91: a running ENC encodes its input segment by segment, at most one step for every value, and one more for
the end. -/
theorem enc_follows_encodeSegments (x : List Byte) (s : State) (h : Encoding src s x) :
    ∃ n t, n ≤ x.length + 1 ∧ CodecRun n s t ∧ Encoded s.cfg.threshold x s.c t.c := by
  induction x using segments_induction generalizing s with
  | nil =>
    have hend := h.bound
    have hstep := (step_encoding h.busy h.encSrc).trans (encStep_atBound (Nat.le_of_eq hend.symm))
    exact ⟨1, _, Nat.le_refl _, .after_step hstep (.refl _), rfl, rfl, hend, rfl⟩
  | run v n x hn hnext ih =>
    obtain ⟨hstep, hrest⟩ := h.step_run hn hnext
    obtain ⟨k, t, hk, hrun, ht⟩ := ih _ hrest
    refine ⟨k + 1, t, ?_, .after_step hstep hrun, ht.done, ?_, ht.cur, ht.bound⟩
    · rw [List.length_append, List.length_replicate]
      omega
    · rw [ht.out, segments_run hn hnext, encodeSegments_run, ← List.append_assoc]
      rfl
  | stretch ws x hstretch ih =>
    obtain ⟨hstep, hrest⟩ := h.step_stretch hstretch
    obtain ⟨k, t, hk, hrun, ht⟩ := ih _ hrest
    have hpos := List.length_pos_iff.2 hstretch.ne_nil
    refine ⟨k + 1, t, ?_, .after_step hstep hrun, ht.done, ?_, ht.cur, ht.bound⟩
    · rw [List.length_append]
      omega
    · rw [ht.out, segments_stretch hstretch, encodeSegments_stretch, ← List.append_assoc]
      rfl

/-- A loaded clean input is clean address by address (R81, R86). -/
theorem cleanBetween_of_cleanInput {a : Nat} (hread : Memory.readRange s.mem.imem a n = some x)
    (hclean : cleanInput x = true) (hsize : a + n ≤ s.cfg.imemSize) : cleanBetween s a (a + n) := by
  obtain ⟨hlength, hvalues⟩ := Memory.readRange_spec hread
  intro j hj hend
  obtain ⟨k, rfl⟩ := Nat.exists_eq_add_of_le hj
  have hk : k < x.length := by omega
  refine ⟨by omega, x[k], (hvalues k (by omega)).trans (List.getElem?_eq_getElem hk), ?_⟩
  rw [← reserved_eq_false_iff]
  simpa using List.all_eq_true.1 hclean _ (List.getElem_mem hk)

end Sys2Proof.Machine
end

section
/-! The closed form of an ENC (R87). -/

namespace Sys2Proof.Machine

/-- Settles O30: the clean input is accepted, and its run is the encoder's closed form, by induction on its
segments. -/
theorem encRunFollowsItsClosedForm : Obligations.EncRunFollowsItsClosedForm := by
  intro s src length x later haccepting hhost hsize hloaded hclean
  obtain ⟨hlength, hvalues⟩ := Memory.readRange_spec hloaded
  have hstep : step s =
      .next (opened src.toNat (src.toNat + length.toNat) (some src.toNat) { s with host := later }) :=
    (step_operation (accepting_ne_busy haccepting) hhost).trans
      (execEnc_clean (s := { s with host := later }) (src := src) (length := length) haccepting
        (checkInput_opened (cleanBetween_of_cleanInput hloaded hclean hsize) (Nat.le_refl _)))
  have hstart : Encoding src.toNat
      (opened src.toNat (src.toNat + length.toNat) (some src.toNat) { s with host := later }) x :=
    ⟨rfl, rfl, congrArg (src.toNat + ·) hlength,
      fun k hk => ⟨Nat.lt_min.2 ⟨by dsimp only [opened]; omega, by dsimp only [opened]; omega⟩,
        hvalues k (by omega)⟩, .inl rfl⟩
  obtain ⟨n, t, hn, hrun, ht⟩ := enc_follows_encodeSegments x _ hstart
  obtain ⟨hruns, hcfg, hp, hmem, hmoves⟩ := hrun.after_opening hstep
  exact ⟨n, t, by omega, hruns, hcfg, hp, hmem, hmoves, ht.done, ht.out, ht.cur, ht.bound⟩

end Sys2Proof.Machine
end

section
/-! SUPPORT. Well-formed streams and what they carry (R56, R72): the encoder's output carries its input. -/

namespace Sys2Proof.Machine

variable {m : Mode} {v c : Byte} {bytes out x ws : List Byte} {n : Nat}

/-- From a mode on the bytes are a well-formed stream up to its END, the last byte, and decode to `out`
(R51 to R56). -/
inductive Carries : Mode → List Byte → List Byte → Prop where
  | ends (m : Mode) : Carries m [Config.endToken] []
  | rep {v : Byte} {bytes out : List Byte} (hv : reserved v = false) (c : Byte) (h : Carries .repeatMode bytes out) :
      Carries .repeatMode (v :: c :: bytes) (List.replicate (c.toNat + 1) v ++ out)
  | lit {v : Byte} {bytes out : List Byte} (hv : reserved v = false) (h : Carries .literalMode bytes out) :
      Carries .literalMode (v :: bytes) (v :: out)
  | toLiteral {v : Byte} {bytes out : List Byte} (hv : reserved v = false) (h : Carries .literalMode bytes out) :
      Carries .repeatMode (Config.toggleToken :: v :: bytes) (v :: out)
  | toRepeat {v : Byte} {bytes out : List Byte} (hv : reserved v = false) (c : Byte)
      (h : Carries .repeatMode bytes out) :
      Carries .literalMode (Config.toggleToken :: v :: c :: bytes) (List.replicate (c.toNat + 1) v ++ out)

/-- R72: the closed form of such a stream reaches its END with all of `out`. -/
theorem Carries.decodes (h : Carries m bytes out) (a : Nat) (before : List Byte) :
    ∃ cur mode, decodeRun m a before bytes = .ended (before ++ out) cur mode ∧
      cur + 1 = a + bytes.length := by
  induction h generalizing a before with
  | ends m => exact ⟨a, m, by rw [decodeRun_end, List.append_nil], rfl⟩
  | @rep v bytes out hv c _ ih =>
    obtain ⟨cur, mode, hrun, hcur⟩ := ih (a + 2) (before ++ List.replicate (c.toNat + 1) v)
    refine ⟨cur, mode, ?_, by simp only [List.length_cons]; omega⟩
    rw [decodeRun_rep (plainValue_of_not_reserved hv), hrun, List.append_assoc]
  | @lit v bytes out hv _ ih =>
    obtain ⟨cur, mode, hrun, hcur⟩ := ih (a + 1) (before ++ [v])
    refine ⟨cur, mode, ?_, by simp only [List.length_cons]; omega⟩
    rw [decodeRun_lit (plainValue_of_not_reserved hv), hrun, List.append_assoc, List.singleton_append]
  | @toLiteral v bytes out _ _ ih =>
    obtain ⟨cur, mode, hrun, hcur⟩ := ih (a + 2) (before ++ [v])
    refine ⟨cur, mode, ?_, by simp only [List.length_cons]; omega⟩
    rw [decodeRun_toLiteral, hrun, List.append_assoc, List.singleton_append]
  | @toRepeat v bytes out _ c _ ih =>
    obtain ⟨cur, mode, hrun, hcur⟩ := ih (a + 3) (before ++ List.replicate (c.toNat + 1) v)
    refine ⟨cur, mode, ?_, by simp only [List.length_cons]; omega⟩
    rw [decodeRun_toRepeat, hrun, List.append_assoc]

/-- R56: such a stream is well formed. -/
theorem Carries.wellFormed (h : Carries m bytes out) : wellFormedStream m bytes = true := by
  induction h with
  | ends m => rw [wellFormedStream.eq_def]; rfl
  | rep hv c _ ih =>
    obtain ⟨hend, htog⟩ := (reserved_eq_false_iff _).1 hv
    rw [wellFormedStream.eq_def]
    exact (if_neg hend).trans ((if_neg htog).trans ih)
  | lit hv _ ih =>
    obtain ⟨hend, htog⟩ := (reserved_eq_false_iff _).1 hv
    rw [wellFormedStream.eq_def]
    exact (if_neg hend).trans ((if_neg htog).trans ih)
  | toLiteral hv _ ih | toRepeat hv _ _ ih =>
    rw [wellFormedStream.eq_def]
    exact (if_neg (by decide)).trans ((if_pos rfl).trans ((if_neg (by rw [hv]; decide)).trans ih))

/-- R83: the chunks of a run carry it, whatever mode their first value is met in: its count byte and what follows. -/
theorem Carries.first_chunk (hv : reserved v = false) (hn : 1 ≤ n) (h : Carries .repeatMode bytes out) :
    ∃ c rest out', chunks v n ++ bytes = v :: c :: rest ∧
      List.replicate n v ++ out = List.replicate (c.toNat + 1) v ++ out' ∧ Carries .repeatMode rest out' := by
  induction n using Nat.strong_induction_on with
  | _ n ih =>
  by_cases hmore : 256 < n
  · obtain ⟨c, rest, out', hbytes, hout, hrest⟩ := ih (n - 256) (by omega) (by omega)
    refine ⟨0xFF, chunks v (n - 256) ++ bytes, List.replicate (n - 256) v ++ out, ?_, ?_, ?_⟩
    · rw [chunks_of_more v hmore]
      rfl
    · have hfull : (0xFF : Byte).toNat + 1 + (n - 256) = n := Nat.add_sub_cancel' (Nat.le_of_lt hmore)
      rw [← List.append_assoc, List.replicate_append_replicate, hfull]
    · rw [hbytes, hout]
      exact hrest.rep hv c
  · refine ⟨BitVec.ofNat 8 (n - 1), bytes, out, ?_, ?_, h⟩
    · rw [chunks_of_few v hn (by omega)]
      rfl
    · rw [BitVec.toNat_ofNat, Nat.mod_eq_of_lt (by omega), Nat.sub_add_cancel hn]

theorem Carries.run (hv : reserved v = false) (hn : 1 ≤ n) (h : Carries .repeatMode bytes out) (m : Mode) :
    Carries m (toggleFor m .repeatMode ++ chunks v n ++ bytes) (List.replicate n v ++ out) := by
  obtain ⟨c, rest, out', hbytes, hout, hrest⟩ := h.first_chunk hv hn
  rw [List.append_assoc, hbytes, hout]
  cases m with
  | repeatMode => exact hrest.rep hv c
  | literalMode => exact hrest.toRepeat hv c

theorem Carries.lits (hws : ∀ v ∈ ws, reserved v = false) (h : Carries .literalMode bytes out) :
    Carries .literalMode (ws ++ bytes) (ws ++ out) := by
  induction ws with
  | nil => exact h
  | cons v ws ih => exact (ih fun w hw => hws w (List.mem_cons_of_mem v hw)).lit (hws v List.mem_cons_self)

/-- R84: a stretch in LITERAL is its values, the first of them after a toggle when it was met in REPEAT. -/
theorem Carries.stretch_literal (hne : ws ≠ []) (hws : ∀ v ∈ ws, reserved v = false)
    (h : Carries .literalMode bytes out) (m : Mode) :
    Carries m (toggleFor m .literalMode ++ ws ++ bytes) (ws ++ out) := by
  cases m with
  | literalMode => exact h.lits hws
  | repeatMode =>
    obtain ⟨v, ws, rfl⟩ := List.exists_cons_of_ne_nil hne
    exact (h.lits fun w hw => hws w (List.mem_cons_of_mem v hw)).toLiteral (hws v List.mem_cons_self)

/-- A stretch shorter than the threshold is one value (R6, R84). -/
theorem length_of_short_stretch {threshold : Threshold} (hne : ws ≠ []) (h : ws.length < threshold.toNat) :
    ∃ v, ws = [v] := by
  have hpos := List.length_pos_iff.2 hne
  have hle : threshold.toNat ≤ 2 := by cases threshold <;> decide
  exact List.length_eq_one_iff.1 (by omega)

theorem Carries.stretch {threshold : Threshold} (hne : ws ≠ []) (hws : ∀ v ∈ ws, reserved v = false) (m : Mode)
    (h : Carries (modeOfStretch threshold m ws.length) bytes out) :
    Carries m (toggleFor m (modeOfStretch threshold m ws.length) ++
      stretchBody (modeOfStretch threshold m ws.length) ws ++ bytes) (ws ++ out) := by
  rw [modeOfStretch] at h ⊢
  by_cases hlong : threshold.toNat ≤ ws.length
  · rw [if_pos hlong] at h ⊢
    exact h.stretch_literal hne hws m
  · rw [if_neg hlong] at h ⊢
    cases m with
    | literalMode => exact h.stretch_literal hne hws .literalMode
    | repeatMode =>
      obtain ⟨v, rfl⟩ := length_of_short_stretch hne (Nat.lt_of_not_le hlong)
      exact h.rep (hws v List.mem_cons_self) 0

theorem cleanInput_iff (x : List Byte) : cleanInput x = true ↔ ∀ v ∈ x, reserved v = false := by
  simp [cleanInput, List.all_eq_true]

/-- R87, R88: the encoder's closed form carries its input, from either mode, for both thresholds. -/
theorem carries_encodeSegments (threshold : Threshold) (x : List Byte) (hclean : ∀ v ∈ x, reserved v = false)
    (m : Mode) : Carries m (encodeSegments threshold m (segments x)) x := by
  induction x using segments_induction generalizing m with
  | nil => cases m <;> exact .ends _
  | run v n x hn hnext ih =>
    have hv : reserved v = false := hclean v (List.mem_append_left x (List.mem_replicate.2 ⟨by omega, rfl⟩))
    rw [segments_run hn hnext, encodeSegments_run]
    exact (ih (fun w hw => hclean w (List.mem_append_right _ hw)) .repeatMode).run hv (by omega) m
  | stretch ws x hstretch ih =>
    rw [segments_stretch hstretch, encodeSegments_stretch]
    exact (ih (fun w hw => hclean w (List.mem_append_right _ hw)) _).stretch hstretch.ne_nil
      (fun w hw => hclean w (List.mem_append_left _ hw)) m

/-! ## The length of the encoder's output (R89 (c)) -/

theorem toggleFor_length_le (m m' : Mode) : (toggleFor m m').length ≤ 1 := by
  cases m <;> cases m' <;> decide

/-- A stretch takes at most two bytes a value. -/
theorem stretch_bytes_le (threshold : Threshold) (m : Mode) (hne : ws ≠ []) :
    (toggleFor m (modeOfStretch threshold m ws.length)).length +
      (stretchBody (modeOfStretch threshold m ws.length) ws).length ≤ 2 * ws.length := by
  have hpos := List.length_pos_iff.2 hne
  have htoggle := toggleFor_length_le m (modeOfStretch threshold m ws.length)
  rw [modeOfStretch] at htoggle ⊢
  by_cases hlong : threshold.toNat ≤ ws.length
  · rw [if_pos hlong] at htoggle ⊢
    rw [stretchBody]
    omega
  · rw [if_neg hlong] at htoggle ⊢
    cases m with
    | literalMode => rw [stretchBody]; omega
    | repeatMode =>
      have hbody : (stretchBody .repeatMode ws).length = min 1 ws.length + 1 := by
        rw [stretchBody, List.length_append, List.length_take, List.length_singleton]
      have htog : (toggleFor .repeatMode .repeatMode).length = 0 := rfl
      omega

theorem encodeSegments_length_le (threshold : Threshold) (x : List Byte) (m : Mode) :
    (encodeSegments threshold m (segments x)).length ≤ 2 * x.length + 1 := by
  induction x using segments_induction generalizing m with
  | nil => cases m <;> exact Nat.le_refl 1
  | run v n x hn hnext ih =>
    have hrest := ih .repeatMode
    have htoggle := toggleFor_length_le m .repeatMode
    rw [segments_run hn hnext, encodeSegments_run]
    simp only [List.length_append, chunks_length, List.length_replicate]
    omega
  | stretch ws x hstretch ih =>
    have hrest := ih (modeOfStretch threshold m ws.length)
    have hbytes := stretch_bytes_le threshold m hstretch.ne_nil
    rw [segments_stretch hstretch, encodeSegments_stretch]
    simp only [List.length_append]
    omega

end Sys2Proof.Machine
end

section
/-! The codec round trip and the shape of the encoder's output (R88, R89). -/

namespace Sys2Proof.Machine

/-- Settles O31: the encoder's output carries its input, so the DEC over it comes to its END with the input in OUT. -/
theorem decodeOfAnEncodedInputIsTheInput : Obligations.DecodeOfAnEncodedInputIsTheInput := by
  intro s threshold x off bound later haccepting hhost hclean hbound hsize hloaded
  obtain ⟨hlength, hvalues⟩ := Memory.readRange_spec hloaded
  have hcarries : Carries .repeatMode (encodeInput threshold x) x :=
    carries_encodeSegments threshold x ((cleanInput_iff x).1 hclean) .repeatMode
  obtain ⟨cur, mode, hended, hcur⟩ := hcarries.decodes off.toNat []
  have hread : Readable (opened off.toNat bound.toNat none s) off.toNat (encodeInput threshold x) :=
    fun k hk => ⟨Nat.lt_min.2 ⟨by dsimp only [opened]; omega, by dsimp only [opened]; omega⟩, hvalues k hk⟩
  obtain ⟨n, t, -, ⟨hrun, -, -, -, hmoves⟩, ht⟩ := dec_run haccepting hhost hread
    (fun a ha => by rw [hended] at ha; cases ha)
  rw [hended] at ht
  change t.c = _ at ht
  exact ⟨n + 1, t, hrun, by rw [ht], by rw [ht]; rfl, hmoves, by rw [ht]; exact hcur⟩

/-- Settles O32: a stream that carries something is well formed, and no segment takes more than two bytes a value. -/
theorem encodedInputIsAShortWellFormedStream : Obligations.EncodedInputIsAShortWellFormedStream :=
  fun threshold x hclean =>
    ⟨(carries_encodeSegments threshold x ((cleanInput_iff x).1 hclean) .repeatMode).wellFormed,
      encodeSegments_length_le threshold x .repeatMode⟩

end Sys2Proof.Machine
end

section
/-! SUPPORT. The four entry rows of the opcode table (R57, R59, R60): their bytes as numbers, and their meaning as one
EVOLVE (log entry 9). -/

namespace Sys2Proof.Machine

variable {s : State} {b : Byte} {p : Phase} {r : RunLength} {eos : Bool}

theorem exec_nil (s : State) : exec .nil s = evolveWith 0 s := rfl

theorem exec_pair (p : Phase) (r : RunLength) (s : State) :
    exec (.pair p r) s = evolveWith (entryByte p false r) s := rfl

theorem exec_pairLast (p : Phase) (r : RunLength) (s : State) :
    exec (.pairLast p r) s = evolveWith (entryByte p true r) s := rfl

theorem exec_reservedEntry (p : Phase) (eos : Bool) (s : State) :
    exec (.reservedEntry p eos) s = evolveWith (entryByte p eos 0) s := rfl

/-- R57: PHASE stands above the remainder. -/
theorem entryByte_toNat (p : Phase) (eos : Bool) (r : RunLength) :
    (entryByte p eos r).toNat = p.toNat * 64 + (32 * eos.toNat + r.toNat) := by
  have hrem := entryByte_rem p eos r
  have hphase := phaseOf_toNat (entryByte p eos r)
  rw [phaseOf_entryByte] at hphase
  omega

theorem one_le_of_ne_zero (hr : r ≠ 0) : 1 ≤ r.toNat :=
  Nat.one_le_iff_ne_zero.2 fun h => hr (BitVec.eq_of_toNat_eq h)

/-- An entry whose remainder exceeds 1, played for one frame (R94, R97). -/
theorem evolveWith_entry {n : Nat} (hactive : active s) (hn : 32 * eos.toNat + r.toNat = n + 1) (hmore : 1 ≤ n) :
    evolveWith (entryByte p eos r) s =
      .next (playing (s.p.outer &&& 0x7F) (BitVec.ofNat 8 (p.toNat * 64 + n)) p s) := by
  have hbyte := entryByte_toNat p eos r
  have hrem := entryByte_rem p eos r
  have hcount : entryByte p eos r - 1 = BitVec.ofNat 8 (p.toNat * 64 + n) := by
    have hlt := (entryByte p eos r).isLt
    apply BitVec.eq_of_toNat_eq
    rw [sub_one_toNat (by omega), BitVec.toNat_ofNat]
    omega
  rw [evolveWith_countsDown hactive (by omega), setCounters_playing, phaseOf_sub_one (by omega), phaseOf_entryByte,
    clearDb_eq_and, hcount]

/-- An entry whose remainder is 0, played for one frame (R96). -/
theorem evolveWith_zero_rem (hactive : active s) (hrem : b.toNat % 64 = 0) :
    evolveWith b s = .next (playing 0x00 0x00 0 s) := by
  rw [evolveWith_empty hactive hrem, setCounters_playing]
  rfl

end Sys2Proof.Machine
end

section
/-! The rules of SCHEDULE's operands (R63, R134) and of the four entry rows (R57, R59, R60, R93). -/

namespace Sys2Proof.Machine

/-- Settles O34: a row is the two gray levels halved. -/
theorem scheduleIgnoresOddLevels : Obligations.ScheduleIgnoresOddLevels := by
  intro s a a' b b' mode ha hb
  have hrow : rowOf a b = rowOf a' b' := by rw [rowOf_eq_ofNat, rowOf_eq_ofNat, ha, hb]
  simp only [exec_schedule, execSchedule, hrow]

/-- Settles O35: OUTER is DB alone, and the first count down clears it. -/
theorem offsetZeroReadsAsIdle : Obligations.OffsetZeroReadsAsIdle := by
  intro s source destination mode b hok hidle hmode hoffset hb
  have hslot : (0 : Byte).toNat < 64 := by decide
  refine ⟨_, execSchedule_loads source destination hok hidle hmode hoffset hslot hb, setCounters_inner _ _ _,
    fun hfew => ?_, fun hmore => ?_⟩
  · have houter : outerOf (loadedDb b) ((0 : Byte).setWidth 7) = 0 := by
      rw [scheduled_outer hslot, if_neg (by omega)]
    rw [houter]
    exact ⟨setCounters_outer _ _ _, evolveWith_dropped _ (.inr (setCounters_outer _ _ _))⟩
  · have houter : outerOf (loadedDb b) ((0 : Byte).setWidth 7) = 0x80 := by
      rw [scheduled_outer hslot, if_pos hmore]
      rfl
    rw [houter]
    refine ⟨setCounters_outer _ _ _, ?_⟩
    have hactive : active (setCounters 0x80 b { s with p := { s.p with row := rowOf source destination } }) := by
      rw [active, setCounters_pstate, setCounters_outer]
      exact ⟨hok, by decide⟩
    have hcleared : clearDb 0x80 = 0 := rfl
    rw [exec_evolve, setCounters_inner, evolveWith_countsDown hactive hmore, setCounters_outer, hcleared]
    exact ⟨_, rfl, setCounters_outer _ _ _, setCounters_inner _ _ _,
      evolveWith_dropped _ (.inr (setCounters_outer _ _ _))⟩

/-- Settles O36: the fault gate and case E1 stand before an entry's own cases. -/
theorem evolveIdleOrFaultedChangesNothing : Obligations.EvolveIdleOrFaultedChangesNothing := by
  intro s p r eos h
  rw [exec_evolve, exec_nil, exec_pair, exec_pairLast, exec_reservedEntry]
  exact ⟨evolveWith_dropped _ h, evolveWith_dropped _ h, evolveWith_dropped _ h, evolveWith_dropped _ h,
    evolveWith_dropped _ h⟩

/-- Settles O40: NIL's remainder is 0. -/
theorem nilReturnsToIdle : Obligations.NilReturnsToIdle :=
  fun _ hactive => evolveWith_zero_rem hactive rfl

/-- Settles O41: each form of entry stands for the byte it is decoded from. -/
theorem evolveRunsTheEntryInInner : Obligations.EvolveRunsTheEntryInInner := by
  intro s
  have hfields := entryByte_fields s.p.inner
  rw [exec_evolve]
  rcases decodeEntry_cases s.p.inner with ⟨hzero, h⟩ | ⟨hrun, _, h⟩ | ⟨_, heos, h⟩ | ⟨_, heos, h⟩
  · rw [h, exec_nil, hzero]
  · rw [h, exec_reservedEntry, ← hrun, hfields]
  · rw [h, exec_pairLast, ← heos, hfields]
  · rw [h, exec_pair, ← heos, hfields]

/-- Settles O42: a pair's remainder is its run. -/
theorem pairPlaysItsRun : Obligations.PairPlaysItsRun := by
  intro s p r hactive hr
  have hpos := one_le_of_ne_zero hr
  have hrem : (entryByte p false r).toNat % 64 = r.toNat := by simp [entryByte_rem]
  rw [exec_pair]
  refine ⟨fun hmore => ?_, fun hone b hslot hb => ?_, fun hone hslot => ?_⟩
  · have hne : r.toNat ≠ 1 := fun h => hmore (BitVec.eq_of_toNat_eq h)
    exact evolveWith_entry hactive (by rw [Bool.toNat_false]; omega) (by omega)
  · rw [← slotIndex_toNat] at hb
    rw [evolveWith_one hactive (by rw [hrem, hone]; rfl), evolveE3_loads rfl hslot hb, setCounters_playing,
      outerOf_true_slot hslot]
    rfl
  · rw [evolveWith_one hactive (by rw [hrem, hone]; rfl), evolveE3_raises rfl hslot]

/-- Settles O43: the EOS bit weighs 32 in the remainder. -/
theorem lastPairCountsItsMarkerAs32 : Obligations.LastPairCountsItsMarkerAs32 := by
  intro s p r hactive hr
  have hpos := one_le_of_ne_zero hr
  exact evolveWith_entry hactive (by rw [Bool.toNat_true]; omega) (by omega)

/-- Settles O44: without EOS the remainder is 0, with it 32. -/
theorem reservedEntryFollowsTheOrdinaryRules : Obligations.ReservedEntryFollowsTheOrdinaryRules := by
  intro s p hactive
  rw [exec_reservedEntry, exec_reservedEntry]
  exact ⟨evolveWith_zero_rem hactive (entryByte_rem p false 0), evolveWith_entry hactive rfl (by decide)⟩

end Sys2Proof.Machine
end

section
/-! SUPPORT. What follows the last entry of a playback: the 32 frames its EOS bit weighs, then an empty slot (R104). -/

namespace Sys2Proof.Machine

variable {s : State} {k : Nat} {ph : Phase} {later : List HostMove}

/-- R96: the step that finds nothing left of the remainder emits the phase and returns unit P to idle. -/
theorem Shows.plays_empty (h : Shows s k ph 0) (hcodec : s.c.cstate ≠ .busy) (hhost : s.host = playSteps 1 ++ later) :
    ∃ t, Plays [ph] later s t ∧ t.p.outer = 0 ∧ t.p.inner = 0 ∧ t.p.pstate = .ok := by
  have hstep := plays_step hcodec h.ok hhost (evolveWith_empty (h.active_framed later) h.remainder)
  rw [h.emitted] at hstep
  exact ⟨_, hstep, setCounters_outer _ _ _, setCounters_inner _ _ _, (setCounters_pstate _ _ _).trans h.ok⟩

/-- R104: an entry with `n` left and an empty slot after it: its phase `n` times, one frame of phase 0, then idle. -/
theorem Shows.plays_to_idle {n : Nat} (h : Shows s k ph (1 + n)) (hslot : k + 1 < 64)
    (hempty : Memory.read s.mem.lut (slotIndex s.p.row (k + 1)) = some 0) (hcodec : s.c.cstate ≠ .busy)
    (hhost : s.host = playSteps (n + 2) ++ later) :
    ∃ t, Plays (List.replicate (n + 1) ph ++ [0]) later s t ∧ t.p.outer = 0 ∧ t.p.inner = 0 ∧ t.p.pstate = .ok := by
  have hmoves : s.host = playSteps n ++ (playSteps 1 ++ (playSteps 1 ++ later)) := by
    rw [hhost, playSteps_add, List.append_assoc]
    rfl
  obtain ⟨t, hst, ht⟩ := h.plays_run (Nat.le_refl 1) hcodec hmoves
  obtain ⟨u, htu, hu⟩ := ht.plays_load hslot (by rw [hst.mem, hst.row]; exact hempty) (hst.codec ▸ hcodec) hst.host
  have hsu := hst.trans htu
  obtain ⟨v, huv, hidle⟩ := Shows.plays_empty hu (hsu.codec ▸ hcodec) hsu.host
  rw [← List.replicate_succ'] at hsu
  exact ⟨v, hsu.trans huv, hidle⟩

/-- R103: SCHEDULE of a conformant row and the frames of its Summary, with the steps of the last entry's 32 still to
come. -/
theorem run_summary {source destination : Level} {mode o : Byte} {S : Summary} {last : Phase × Nat} {n : Nat}
    (hcodec : s.c.cstate ≠ .busy) (hok : s.p.pstate = .ok) (hidle : s.p.outer = 0)
    (hrow : conformantRow s source destination mode o S) (hlast : S.getLast? = some last)
    (hhost : s.host =
      moveOf (.schedule source destination mode) :: (playSteps (totalFrames S + n) ++ later)) :
    ∃ t, run (1 + 2 * totalFrames S) s = .next t ∧ t.p.hist = s.p.hist ++ expand S ∧
      Shows t (o.toNat + S.length - 1) last.1 32 ∧ t.host = playSteps n ++ later ∧
      t.p.row = rowOf source destination ∧ t.c = s.c ∧ t.mem = s.mem := by
  cases S with
  | nil => cases hlast
  | cons x S =>
    obtain ⟨t, hstep, hshows, hhist, hlatched, hc, hmem, hmoves⟩ :=
      step_schedule_conformant hcodec hok hidle hrow hhost
    obtain ⟨-, -, -, ⟨-, hruns⟩, hslots, hentries⟩ := hrow
    rw [List.length_cons, Config.slots_eq] at hslots
    rw [pack_cons] at hentries
    obtain ⟨-, hrest⟩ := Memory.readRange_cons hentries
    rw [playSteps_add, List.append_assoc] at hmoves
    obtain ⟨u, hplays, hu⟩ := hshows.plays_summary hruns (by omega) (by rw [hmem, hlatched]; exact hrest)
      (hc ▸ hcodec) hmoves
    have hrun := hplays.runs
    rw [expand_length] at hrun
    rw [List.getLast?_eq_some_getLast (List.cons_ne_nil x S)] at hlast
    rw [Option.some.inj hlast] at hu
    refine ⟨u, ?_, ?_, hu, hplays.host, hplays.row.trans hlatched, hplays.codec.trans hc, hplays.mem.trans hmem⟩
    · rw [Nat.add_comm, run_succ hstep, hrun]
    · rw [hplays.hist, hhist]

end Sys2Proof.Machine
end

section
/-! The end of a playback (R104). -/

namespace Sys2Proof.Machine

/-- Settles O48: after the Summary's own frames the last entry has 32 left, and the slot after it is empty. -/
theorem playbackHoldsTheLastPhaseAndStops : Obligations.PlaybackHoldsTheLastPhaseAndStops := by
  intro s source destination mode o S last later hcodec hok hidle hrow hlast hslot hempty hhost
  obtain ⟨t, hrun, hhist, hshows, hmoves, hlatched, hc, hmem⟩ :=
    run_summary hcodec hok hidle hrow hlast hhost
  have hpos : 0 < S.length := List.length_pos_iff.2 fun hnil => by rw [hnil] at hlast; cases hlast
  have hnext : o.toNat + S.length - 1 + 1 = o.toNat + S.length := by omega
  obtain ⟨u, hplays, houter, hinner, hstate⟩ := hshows.plays_to_idle (n := 31) (later := later) (by omega)
    (by rw [hmem, hlatched, hnext]; exact hempty) (hc ▸ hcodec) hmoves
  refine ⟨u, ?_, ?_, houter, hinner, hstate, hplays.host⟩
  · have hsteps : 1 + 2 * (totalFrames S + 33) = 1 + 2 * totalFrames S + 66 := by omega
    rw [hsteps, run_add hrun]
    exact hplays.runs
  · rw [hplays.hist, hhist, ← List.append_assoc]

end Sys2Proof.Machine
end

section
/-! SUPPORT. The bound on a playback (R105): every EVOLVE brings it nearer to its end. -/

namespace Sys2Proof.Machine

variable {s t : State} {n : Nat} {later : List HostMove}

/-- The EVOLVEs a playback can still take: one for each count of the remainder, 63 for each slot after IDX, and one to
end (R39, R93). -/
def evolvesLeft (s : State) : Nat :=
  s.p.inner.toNat % 64 + 63 * (63 - s.p.outer.toNat % 128) + 1

theorem evolvesLeft_le (s : State) : evolvesLeft s ≤ 64 * 64 := by
  unfold evolvesLeft
  omega

/-- The playback is over (R18, R22). -/
abbrev stopped (s : State) : Prop := s.p.outer = 0 ∨ s.p.pstate = .fault

theorem active_of_not_stopped (h : ¬ stopped s) : active s := by
  obtain ⟨houter, hfault⟩ := not_or.1 h
  refine ⟨?_, houter⟩
  cases hstate : s.p.pstate with
  | ok => rfl
  | fault => exact absurd hstate hfault

/-- R93 to R97: one EVOLVE over a loaded row ends the playback or leaves it fewer EVOLVEs. -/
theorem evolve_brings_nearer (hactive : active s)
    (hrow : ∀ k, k < 64 → ∃ b, Memory.read s.mem.lut (slotIndex s.p.row k) = some b) :
    ∃ t, evolveWith s.p.inner s = .next t ∧ t.c = s.c ∧ t.mem = s.mem ∧ t.host = s.host ∧ t.p.row = s.p.row ∧
      (stopped t ∨ evolvesLeft t < evolvesLeft s) := by
  have hcases : s.p.inner.toNat % 64 = 0 ∨ s.p.inner.toNat % 64 = 1 ∨ 1 < s.p.inner.toNat % 64 := by omega
  rcases hcases with hrem | hrem | hrem
  · exact ⟨_, evolveWith_empty hactive hrem, rfl, rfl, rfl, setCounters_row _ _ _,
      .inl (.inl (setCounters_outer _ _ _))⟩
  · rw [evolveWith_one hactive hrem]
    by_cases hslot : s.p.outer.toNat % 128 + 1 < 64
    · obtain ⟨b, hb⟩ := hrow _ hslot
      refine ⟨_, evolveE3_loads rfl hslot hb, rfl, rfl, rfl, setCounters_row _ _ _, .inr ?_⟩
      rw [evolvesLeft, evolvesLeft, setCounters_outer, setCounters_inner, outerOf_idx, BitVec.toNat_ofNat]
      omega
    · exact ⟨_, evolveE3_raises rfl (Nat.le_of_not_lt hslot), rfl, rfl, rfl, rfl, .inl (.inr rfl)⟩
  · refine ⟨_, evolveWith_countsDown hactive hrem, rfl, rfl, rfl, setCounters_row _ _ _, .inr ?_⟩
    rw [evolvesLeft, evolvesLeft, setCounters_outer, setCounters_inner, clearDb_idx, sub_one_rem (by omega)]
    omega

/-- R105: as many EVOLVEs as are left at most lead to idle or to a fault. -/
theorem evolves_to_stop (hcodec : s.c.cstate ≠ .busy)
    (hrow : ∀ k, k < 64 → ∃ b, Memory.read s.mem.lut (slotIndex s.p.row k) = some b)
    (hhost : s.host = List.replicate n (moveOf .evolve) ++ later) (hn : evolvesLeft s ≤ n) :
    ∃ k t, k ≤ n ∧ run k s = .next t ∧ stopped t := by
  induction n generalizing s with
  | zero => exact absurd hn (by unfold evolvesLeft; omega)
  | succ n ih =>
    by_cases hstop : stopped s
    · exact ⟨0, s, Nat.zero_le _, run_zero s, hstop⟩
    obtain ⟨t, hevolve, hc, hmem, hmoves, hlatched, hnearer⟩ := evolve_brings_nearer
      (s := { s with host := List.replicate n (moveOf .evolve) ++ later }) (active_of_not_stopped hstop) hrow
    have hstep := (step_evolve hcodec hhost).trans hevolve
    rcases hnearer with hdone | hless
    · exact ⟨1, t, Nat.le_add_left _ _, run_succ hstep 0, hdone⟩
    · obtain ⟨k, u, hk, hrun, hu⟩ := ih (s := t) (by rw [hc]; exact hcodec) (by rw [hmem, hlatched]; exact hrow) hmoves
        (Nat.le_of_lt_succ (hless.trans_le hn))
      exact ⟨k + 1, u, Nat.succ_le_succ hk, (run_succ hstep k).trans hrun, hu⟩

end Sys2Proof.Machine
end

section
/-! A playback ends (R105). -/

namespace Sys2Proof.Machine

/-- Settles O49: at most 4033 EVOLVEs are left in any state. -/
theorem playbackTerminates : Obligations.PlaybackTerminates := by
  intro s entries later hcodec hloaded hhost
  obtain ⟨hlength, hread⟩ := Memory.readRange_spec hloaded
  refine evolves_to_stop hcodec (fun k hk => ⟨entries[k], ?_⟩) hhost (evolvesLeft_le s)
  have := hread k hk
  rwa [slotIndex_toNat, Nat.add_zero, ← slotIndex_toNat, List.getElem?_eq_getElem] at this

end Sys2Proof.Machine
end

section
/-! SUPPORT. The table contract (R127): what it says of one mode and one row. -/

namespace Sys2Proof.Machine

variable {s : State} {first : Nat} {nonIdle : List (Byte × Nat)} {idle : List Byte} {T : TableSource} {mode : Byte}

/-- R63: two transitions with one row have the same halves. -/
theorem halves_of_rowOf_eq {a b source destination : Level} (h : rowOf a b = rowOf source destination) :
    a.toNat / 2 = source.toNat / 2 ∧ b.toNat / 2 = destination.toNat / 2 := by
  rw [← rowS_rowOf a b, ← rowD_rowOf a b, h, rowS_rowOf, rowD_rowOf]
  exact ⟨rfl, rfl⟩

/-- R127 (a), (b): every mode laid out has an offset from 1 to 63. -/
theorem offsetsLaidOut.offset {moff : Memory} {o : Nat} (h : offsetsLaidOut moff o idle nonIdle)
    (hmode : mode ∈ nonIdle.map Prod.fst ++ idle) :
    ∃ b : Byte, Memory.read moff mode.toNat = some b ∧ 1 ≤ b.toNat ∧ b.toNat < 64 := by
  have hbyte {k : Nat} (hk : 1 ≤ k ∧ k < Config.slots) :
      1 ≤ (BitVec.ofNat 8 k).toNat ∧ (BitVec.ofNat 8 k).toNat < 64 := by
    rw [Config.slots_eq] at hk
    rw [BitVec.toNat_ofNat]
    omega
  induction nonIdle generalizing o with
  | nil =>
    obtain ⟨hread, hk⟩ := h mode hmode
    exact ⟨_, hread, hbyte hk⟩
  | cons x nonIdle ih =>
    obtain ⟨⟨hread, hk⟩, hlater⟩ := h
    rcases List.mem_cons.1 hmode with rfl | hmode
    · exact ⟨_, hread, hbyte hk⟩
    · exact ih hlater hmode

/-- R127 (a) to (c): the row of a transition is conformant for the Summary it holds, if that is not empty. -/
theorem TableContract.conformantRow_held (h : TableContract s first nonIdle idle T)
    (hmode : mode ∈ nonIdle.map Prod.fst ++ idle) (source destination : Level)
    (hne : T.held (rowOf source destination) mode ≠ []) :
    ∃ o, conformantRow s source destination mode o (T.held (rowOf source destination) mode) := by
  obtain ⟨o, hread, hstart, -⟩ := h.offsets.offset hmode
  obtain ⟨hslots, hruns, hentries⟩ := h.packed mode hmode (rowOf source destination) o hread
  exact ⟨o, h.recognised mode hmode, hread, hstart, ⟨hne, hruns⟩, hslots, hentries⟩

/-- R127 (c), (d): every slot of a table that meets the contract is loaded, by a Summary or with 0x00. -/
theorem TableContract.loaded (h : TableContract s first nonIdle idle T) (row : RowPair) {k : Nat} (hk : k < 64) :
    ∃ b, Memory.read s.mem.lut (slotIndex row k) = some b := by
  by_cases hcovered : ∃ m ∈ nonIdle.map Prod.fst ++ idle, ∃ o, Memory.read s.mem.moff m.toNat = some o ∧
      o.toNat ≤ k ∧ k < o.toNat + (T.held row m).length
  · obtain ⟨m, hm, o, hread, hfrom, hto⟩ := hcovered
    obtain ⟨-, -, hentries⟩ := h.packed m hm row o hread
    obtain ⟨hlength, hbytes⟩ := Memory.readRange_spec hentries
    obtain ⟨j, rfl⟩ := Nat.exists_eq_add_of_le hfrom
    have hj : j < (T.held row m).length := by omega
    have hslot := hbytes j hj
    rw [slotIndex_toNat, Nat.add_assoc, ← slotIndex_toNat, List.getElem?_eq_getElem (by omega)] at hslot
    exact ⟨_, hslot⟩
  · refine ⟨0, h.filled row k hk fun m hm o hread => ?_⟩
    by_contra hinside
    exact hcovered ⟨m, hm, o, hread, by omega, by omega⟩

end Sys2Proof.Machine
end

section
/-! The table contract and the builder's tables (R40, R127). -/

namespace Sys2Proof.Machine

/-- Settles O50: the row's Summary is one of a transition that selects the row; and SCHEDULE over a built table finds
the mode recognised, its offset a slot, and the slot loaded. -/
theorem tableContractGivesConformantRows : Obligations.TableContractGivesConformantRows := by
  intro s first nonIdle idle T source destination mode hmode
  refine ⟨fun h hne => ?_, fun h hok hidle => ?_⟩
  · obtain ⟨ha, hb⟩ := halves_of_rowOf_eq (h.selected (rowOf source destination))
    exact ⟨_, _, ha, hb, rfl, h.conformantRow_held hmode source destination hne⟩
  · obtain ⟨o, hread, hstart, hslot⟩ := h.offsets.offset hmode
    obtain ⟨b, hb⟩ := h.loaded (rowOf source destination) hslot
    refine ⟨_, execSchedule_loads source destination hok hidle (h.recognised mode hmode) hread hslot hb,
      (setCounters_pstate _ _ _).trans hok, ?_⟩
    have hidx : (outerOf (loadedDb b) (o.setWidth 7)).toNat % 128 = o.toNat := by
      rw [outerOf_idx, BitVec.toNat_setWidth]
      omega
    rw [setCounters_outer, hidx, BitVec.ofNat_toNat, BitVec.setWidth_eq]
    exact ⟨hread, hstart, fun a c => h.fits mode hmode a c o hread⟩

end Sys2Proof.Machine
end

section
/-! SUPPORT. The host's stores of consecutive bytes (R128), and the bytes of a record (R41). -/

namespace Sys2Proof.Machine

variable {s : State} {later : List HostMove}

theorem read_storeBytes_below (m : Memory) {a j : Nat} (bytes : List Byte) (h : j < a) :
    Memory.read (storeBytes m a bytes) j = Memory.read m j := by
  induction bytes generalizing m a with
  | nil => rfl
  | cons b bytes ih => rw [storeBytes, ih _ (Nat.lt_succ_of_lt h), Memory.read_store_other _ _ (Nat.ne_of_lt h)]

theorem read_storeBytes (m : Memory) (a : Nat) (bytes : List Byte) {k : Nat} (hk : k < bytes.length) :
    Memory.read (storeBytes m a bytes) (a + k) = bytes[k]? := by
  induction bytes generalizing m a k with
  | nil => exact absurd hk (Nat.not_lt_zero _)
  | cons b bytes ih =>
    rw [storeBytes]
    cases k with
    | zero => exact (read_storeBytes_below _ _ (Nat.lt_succ_self a)).trans (Memory.read_store_same m a b)
    | succ k =>
      rw [← Nat.add_assoc, Nat.add_right_comm, ih _ _ (Nat.lt_of_succ_lt_succ hk), List.getElem?_cons_succ]

theorem readRange_storeBytes (m : Memory) (a : Nat) (bytes : List Byte) :
    Memory.readRange (storeBytes m a bytes) a bytes.length = some bytes :=
  Memory.readRange_of_read fun _ hk => read_storeBytes m a bytes hk

@[simp] theorem Memories.set_set (m : Memories) (space : Space) (x y : Memory) :
    (m.set space x).set space y = m.set space y := by
  cases space <;> rfl

@[simp] theorem Memories.set_get (m : Memories) (space : Space) : m.set space (m.get space) = m := by
  cases space <;> rfl

/-- The machine after the host stored bytes at consecutive addresses, the moves `later` left to it. -/
def stored (space : Space) (a : Nat) (bytes : List Byte) (later : List HostMove) (s : State) : State :=
  { s with host := later, mem := s.mem.set space (storeBytes (s.mem.get space) a bytes) }

/-- R128: consecutive stores inside a memory, one step each. -/
theorem run_storeMoves {space : Space} {a : Nat} (bytes : List Byte) (hcodec : s.c.cstate ≠ .busy)
    (hsize : a + bytes.length ≤ spaceSize s.cfg space) (hhost : s.host = storeMoves space a bytes ++ later) :
    run bytes.length s = .next (stored space a bytes later s) := by
  induction bytes generalizing s a with
  | nil =>
    have hdone : stored space a [] later s = s := by
      rw [stored, storeBytes, Memories.set_get, ← show s.host = later from hhost]
    rw [hdone]
    exact run_zero s
  | cons b bytes ih =>
    rw [List.length_cons] at hsize ⊢
    have hstep : step s = .next (stored space a [b] (storeMoves space (a + 1) bytes ++ later) s) :=
      (step_write hcodec hhost).trans (hostWrite_inside b (by dsimp only; omega))
    rw [run_succ hstep, ih (s := stored space a [b] _ s) hcodec (by dsimp only [stored]; omega) rfl]
    simp only [stored, Memories.get_set_same, Memories.set_set, storeBytes]

/-! ## A record's bytes -/

theorem littleEndian_length (v : BitVec 32) : (littleEndian v).length = 4 := rfl

/-- R44: the four bytes of a bound are the bound. -/
theorem fromLittleEndian_bytes (v : BitVec 32) :
    fromLittleEndian (v.extractLsb' 0 8) (v.extractLsb' 8 8) (v.extractLsb' 16 8) (v.extractLsb' 24 8) = v := by
  have hv := v.isLt
  apply BitVec.eq_of_toNat_eq
  unfold fromLittleEndian
  rw [BitVec.toNat_append, BitVec.toNat_append, BitVec.toNat_append,
    ← Nat.shiftLeft_add_eq_or_of_lt (BitVec.isLt _), ← Nat.shiftLeft_add_eq_or_of_lt (BitVec.isLt _),
    ← Nat.shiftLeft_add_eq_or_of_lt (BitVec.isLt _)]
  simp only [BitVec.extractLsb'_toNat, Nat.shiftRight_eq_div_pow, Nat.shiftLeft_eq]
  omega

theorem recordBytes_length {n : Nat} {r : LutRecord} (h : r.wf n) : (recordBytes r).length = recordSize n := by
  obtain ⟨hoffsets, htable⟩ := h
  simp only [recordBytes, List.length_append, littleEndian_length, hoffsets, htable, recordSize]

/-- R41: the two bounds take eight bytes, the offsets and the table follow. -/
theorem readRecord_recordBytes {n : Nat} {r : LutRecord} (h : r.wf n) : readRecord n (recordBytes r) = some r := by
  have hlength := recordBytes_length h
  obtain ⟨hoffsets, -⟩ := h
  unfold readRecord
  rw [if_pos hlength]
  simp only [recordBytes, littleEndian, List.cons_append, List.nil_append, fromLittleEndian_bytes]
  rw [← hoffsets, List.take_left, List.drop_left]

end Sys2Proof.Machine
end

section
/-! The image formats and their loading (R41, R126, R128). -/

namespace Sys2Proof.Machine

/-- Settles O51: the parts of a record are its bytes' parts. -/
theorem recordReadsBackFromItsBytes : Obligations.RecordReadsBackFromItsBytes :=
  fun _ _ h => ⟨recordBytes_length h, readRecord_recordBytes h⟩

/-- Settles O52: the stores of MOFF, then those of LUT. -/
theorem loadedRecordFillsTheTables : Obligations.LoadedRecordFillsTheTables := by
  intro s r later hcodec hwf hhost
  obtain ⟨hoffsets, htable⟩ := hwf
  rw [Config.lutBytes_eq] at htable
  rw [loadRecord, List.append_assoc] at hhost
  have hmoff := run_storeMoves r.offsets hcodec (by rw [hoffsets, Nat.zero_add]; rfl) hhost
  have hlut := run_storeMoves (s := stored .moff 0 r.offsets (storeMoves .lut 0 r.table ++ later) s) r.table hcodec
    (by rw [htable, Nat.zero_add]; rfl) rfl
  have hmoffRead := readRange_storeBytes s.mem.moff 0 r.offsets
  have hlutRead := readRange_storeBytes s.mem.lut 0 r.table
  rw [hoffsets] at hmoff hmoffRead
  rw [htable] at hlut hlutRead
  exact ⟨_, (run_add hmoff 16384).trans hlut, rfl, hmoffRead, hlutRead, rfl, rfl, rfl, rfl⟩

end Sys2Proof.Machine
end

section
/-! SUPPORT. Everything an instruction of each unit can do when it answers a next state, in the form the frame rules
and the invariant need (R12, R20, R35, R37, R98, R112). -/

namespace Sys2Proof.Machine

variable {s t : State} {i : Instr}

/-- The next states an instruction of unit P can answer: OUTER, INNER and the active slot written, at a SCHEDULE with
ROW; HIST and SEL at a FRAME; or one of unit P's two exceptions. An IDX inside the row stays inside. -/
inductive PlayerNext (i : Instr) (s : State) : State → Prop where
  | same : PlayerNext i s s
  | raises (e : Exc) (he : (∃ mode, e = .modeIndex mode) ∨ ∃ k, e = .lutIndex k) :
      PlayerNext i s (takeException .player e s)
  | plays (outer : OuterWord) (b : Byte) (hidx : (idxOf s.p.outer).toNat < 64 → (idxOf outer).toNat < 64) :
      PlayerNext i s (setCounters outer b s)
  | schedules (row : RowPair) (outer : OuterWord) (b : Byte) (hidx : (idxOf outer).toNat < 64)
      (hi : ∃ source destination mode, i = .schedule source destination mode) :
      PlayerNext i s (setCounters outer b { s with p := { s.p with row := row } })
  | frames (hi : i = .frame) :
      PlayerNext i s { s with p := { s.p with hist := s.p.hist ++ [activePhase s.p], sel := !s.p.sel } }

theorem idxOf_outerOf (db : Bool) (idx : SeqIndex) : (idxOf (outerOf db idx)).toNat = idx.toNat := by
  rw [idxOf_toNat, outerOf_idx]

theorem playerNext_of_evolveWith {b : Byte} (h : evolveWith b s = .next t) : PlayerNext i s t := by
  rcases evolveWith_next h with ⟨_, rfl⟩ | ⟨_, _, rfl⟩ | ⟨_, hload⟩ | ⟨_, rfl⟩ | ⟨_, _, rfl⟩
  · exact .same
  · exact .plays _ _ fun hidx => by rwa [clearDb, idxOf_outerOf]
  · rcases evolveE3_next hload with ⟨_, rfl⟩ | ⟨hslot, _, _, rfl⟩
    · exact .raises _ (.inr ⟨_, rfl⟩)
    · exact .plays _ _ fun _ => by rw [idxOf_outerOf, BitVec.toNat_ofNat]; omega
  · exact .plays _ _ fun _ => by decide
  · exact .plays _ _ id

theorem playerNext_of_execSchedule {source destination : Level} {mode : Byte}
    (h : execSchedule source destination mode s = .next t) :
    PlayerNext (.schedule source destination mode) s t := by
  rcases execSchedule_next h with ⟨_, rfl⟩ | ⟨_, rfl⟩ | ⟨_, _, _, ⟨_, rfl⟩ | ⟨hslot, _, _, rfl⟩⟩
  · exact .same
  · exact .raises _ (.inl ⟨_, rfl⟩)
  · exact .raises _ (.inr ⟨_, rfl⟩)
  · exact .schedules _ _ _ (by rw [idxOf_outerOf, BitVec.toNat_setWidth]; omega) ⟨_, _, _, rfl⟩

/-- R1, R11: what an instruction of unit P can do. -/
theorem exec_player_next (hunit : unitOf i = some .player) (h : exec i s = .next t) : PlayerNext i s t := by
  cases i with
  | nil | pair | pairLast | reservedEntry | evolve => exact playerNext_of_evolveWith h
  | schedule => exact playerNext_of_execSchedule h
  | frame =>
    rcases execFrame_next h with ⟨_, rfl⟩ | ⟨_, rfl⟩
    · exact .same
    · exact .frames rfl
  | endTok | tog | rep | lit | dec | enc | reservedOp => cases hunit

/-- The next states an instruction of unit C can answer: a token's writes, which only append to OUT; at a DEC or an
ENC the writes of a run's opening, which empty OUT; or an exception upon either. -/
inductive CodecNext (i : Instr) (s : State) : State → Prop where
  | same : CodecNext i s s
  | truncated (a : Nat) : CodecNext i s (takeException .codec (.truncated a) s)
  | ends : CodecNext i s (setCState .done s)
  | token (mode : Mode) (cur : Nat) (bytes : List Byte) :
      CodecNext i s { s with c := { s.c with mode := mode, cur := cur, out := s.c.out ++ bytes } }
  | opens (cur bound : Nat) (encSrc : Option Nat)
      (hi : (∃ off bound, i = .dec off bound) ∨ ∃ src length, i = .enc src length) :
      CodecNext i s (opened cur bound encSrc s)
  | rejects (e : Exc) (cur bound : Nat) (encSrc : Option Nat) (hi : ∃ src length, i = .enc src length) :
      CodecNext i s (takeException .codec e (opened cur bound encSrc s))

/-- R1, R11: what an instruction of unit C can do. -/
theorem exec_codec_next (hunit : unitOf i = some .codec) (h : exec i s = .next t) : CodecNext i s t := by
  cases i with
  | endTok => cases h; exact .ends
  | lit v => cases h; exact .token _ _ _
  | rep v c =>
    rcases provided_next h with ⟨rfl, _⟩ | ⟨_, _, rfl⟩
    · exact .token _ _ _
    · exact .truncated _
  | tog v count =>
    rcases execTog_next h with ⟨_, rfl⟩ | ⟨_, _, rfl⟩ | ⟨_, _, _, rfl⟩
    · exact .truncated _
    · exact .token _ _ _
    · exact .token _ _ _
  | dec off bound =>
    rcases execDec_next h with rfl | ⟨_, rfl⟩
    · exact .same
    · exact .opens _ _ _ (.inl ⟨_, _, rfl⟩)
  | enc src length =>
    rcases execEnc_next h with rfl | ⟨_, _, rfl, ⟨_, rfl⟩ | ⟨_, _, rfl⟩⟩
    · exact .same
    · exact .opens _ _ _ (.inr ⟨_, _, rfl⟩)
    · exact .rejects _ _ _ _ ⟨_, _, rfl⟩
  | nil | pair | pairLast | reservedEntry | schedule | evolve | frame | reservedOp => cases hunit

/-- R62: an instruction of neither unit does nothing. -/
theorem exec_of_no_unit (hunit : unitOf i = none) (h : exec i s = .next t) : t = s := by
  cases i with
  | reservedOp => cases h; rfl
  | endTok | tog | rep | lit | nil | pair | pairLast | reservedEntry | dec | enc | schedule | evolve | frame =>
    cases hunit

/-! ## What each unit's instructions leave -/

/-- R12, R35, R112: an instruction of unit P writes unit P alone. -/
theorem PlayerNext.eq_with_p (h : PlayerNext i s t) : t = { s with p := t.p } := by
  cases h <;> rfl

/-- R12, R35, R112: an instruction of unit C writes unit C alone. -/
theorem CodecNext.eq_with_c (h : CodecNext i s t) : t = { s with c := t.c } := by
  cases h <;> rfl

theorem exec_rest (h : exec i s = .next t) : t.mem = s.mem ∧ t.cfg = s.cfg ∧ t.host = s.host := by
  cases hunit : unitOf i with
  | none => rw [exec_of_no_unit hunit h]; exact ⟨rfl, rfl, rfl⟩
  | some unit =>
    cases unit with
    | codec => rw [(exec_codec_next hunit h).eq_with_c]; exact ⟨rfl, rfl, rfl⟩
    | player => rw [(exec_player_next hunit h).eq_with_p]; exact ⟨rfl, rfl, rfl⟩

/-- Outside unit P's instructions, unit P stays. -/
theorem exec_p_of_not_player (hunit : unitOf i ≠ some .player) (h : exec i s = .next t) : t.p = s.p := by
  cases hof : unitOf i with
  | none => rw [exec_of_no_unit hof h]
  | some unit =>
    cases unit with
    | codec => exact exec_codec_p hof h
    | player => exact absurd hof hunit

/-- Outside unit C's instructions, unit C stays. -/
theorem exec_c_of_not_codec (hunit : unitOf i ≠ some .codec) (h : exec i s = .next t) : t.c = s.c := by
  cases hof : unitOf i with
  | none => rw [exec_of_no_unit hof h]
  | some unit =>
    cases unit with
    | player => exact exec_player_c hof h
    | codec => exact absurd hof hunit

/-- R98: the slot that is not active is not written. -/
theorem setActivePhase_inactive (ph : Phase) (p : UnitP) :
    if p.sel = true then (setActivePhase ph p).ph0 = p.ph0 else (setActivePhase ph p).ph1 = p.ph1 := by
  cases h : p.sel <;> simp [setActivePhase, h]

theorem PlayerNext.inactive (h : PlayerNext i s t) :
    if s.p.sel = true then t.p.ph0 = s.p.ph0 else t.p.ph1 = s.p.ph1 := by
  cases h with
  | same | raises | frames => split <;> rfl
  | plays outer b => exact setActivePhase_inactive (phaseOf b) { s.p with outer := outer, inner := b }
  | schedules row outer b =>
    exact setActivePhase_inactive (phaseOf b) { s.p with row := row, outer := outer, inner := b }

end Sys2Proof.Machine
end

section
/-! The frame rules of the instructions (R1, R11, R12, R20, R21, R23, R35, R37, R98). -/

namespace Sys2Proof.Machine

/-- Settles O53: an instruction writes one unit alone. -/
theorem instructionsWriteNoMemory : Obligations.InstructionsWriteNoMemory :=
  fun _ _ _ => exec_rest

/-- Settles O54: each unit's instructions leave the other unit. -/
theorem unitsShareNoState : Obligations.UnitsShareNoState :=
  fun _ _ _ h => ⟨fun hunit => exec_codec_p hunit h, fun hunit => exec_player_c hunit h⟩

/-- Settles O56: only unit P's instructions write a slot, and they write the active one. -/
theorem inactiveSlotIsNeverWritten : Obligations.InactiveSlotIsNeverWritten := by
  intro i s t h
  by_cases hunit : unitOf i = some .player
  · exact (exec_player_next hunit h).inactive
  · rw [exec_p_of_not_player hunit h]
    split <;> rfl

/-- Settles O57: of unit P's next states one has another ROW and one another SEL. -/
theorem rowAndSelHaveOneWriter : Obligations.RowAndSelHaveOneWriter := by
  intro i s t h
  by_cases hunit : unitOf i = some .player
  · cases exec_player_next hunit h with
    | same | raises => exact ⟨fun hrow => absurd rfl hrow, fun hsel => absurd rfl hsel⟩
    | plays => exact ⟨fun hrow => absurd (setCounters_row _ _ _) hrow, fun hsel => absurd (setCounters_sel _ _ _) hsel⟩
    | schedules row outer b hidx hi => exact ⟨fun _ => hi, fun hsel => absurd (setCounters_sel _ _ _) hsel⟩
    | frames hi => exact ⟨fun hrow => absurd rfl hrow, fun _ => hi⟩
  · have hp := exec_p_of_not_player hunit h
    exact ⟨fun hrow => absurd (congrArg UnitP.row hp) hrow, fun hsel => absurd (congrArg UnitP.sel hp) hsel⟩

/-- Settles O58: HIST is written by FRAME alone; OUT is appended to by tokens and emptied where a run opens. -/
theorem streamsOnlyGrow : Obligations.StreamsOnlyGrow := by
  intro i s t h
  constructor
  · by_cases hunit : unitOf i = some .player
    · cases exec_player_next hunit h with
      | same | raises => exact .inl rfl
      | plays | schedules => exact .inl (setCounters_hist _ _ _)
      | frames hi => exact .inr ⟨hi, rfl⟩
    · exact .inl (congrArg UnitP.hist (exec_p_of_not_player hunit h))
  · by_cases hunit : unitOf i = some .codec
    · cases exec_codec_next hunit h with
      | same | truncated | ends => exact .inl ⟨[], (List.append_nil _).symm⟩
      | token mode cur bytes => exact .inl ⟨bytes, rfl⟩
      | opens cur bound encSrc hi => exact .inr ⟨hi, rfl⟩
      | rejects e cur bound encSrc hi => exact .inr ⟨.inr hi, rfl⟩
    · exact .inl ⟨[], by rw [exec_c_of_not_codec hunit h, List.append_nil]⟩

end Sys2Proof.Machine
end

section
/-! SUPPORT. What an instruction of one unit does whatever the other unit holds (R48). -/

namespace Sys2Proof.Machine

/-- An outcome with its next state changed, if it has one. -/
def mapNext (f : State → State) : Result → Result
  | .next s => .next (f s)
  | .fault r => .fault r
  | .refused r => .refused r

/-- The machine with another unit C. -/
def withC (c : UnitC) (s : State) : State := { s with c := c }

/-- The machine with another unit P. -/
def withP (p : UnitP) (s : State) : State := { s with p := p }

variable {s t : State} {i : Instr} (c : UnitC) (p : UnitP)

theorem mapNext_next {f : State → State} {r : Result} (h : mapNext f r = .next t) : ∃ u, r = .next u ∧ t = f u := by
  cases r with
  | next u => cases h; exact ⟨u, rfl, rfl⟩
  | fault | refused => cases h

theorem mapNext_ite {P : Prop} [Decidable P] (f : State → State) (r r' : Result) :
    mapNext f (if P then r else r') = if P then mapNext f r else mapNext f r' :=
  apply_ite (mapNext f) P r r'

@[simp] theorem withC_cfg (s : State) : (withC c s).cfg = s.cfg := rfl
@[simp] theorem withC_p (s : State) : (withC c s).p = s.p := rfl
@[simp] theorem withC_mem (s : State) : (withC c s).mem = s.mem := rfl
@[simp] theorem withP_c (s : State) : (withP p s).c = s.c := rfl

theorem lutFetch_withC (s : State) (row : RowPair) (k : Nat) : lutFetch (withC c s) row k = lutFetch s row k := rfl

theorem fetch_withP (s : State) (a : Nat) : fetch (withP p s) a = fetch s a := rfl

theorem openRun_withP (cur bound : Nat) (encSrc : Option Nat) (s : State) :
    openRun cur bound encSrc (withP p s) = withP p (openRun cur bound encSrc s) := rfl

/-! ## Unit P's instructions -/

theorem evolveE3_withC (s : State) : evolveE3 (withC c s) = mapNext (withC c) (evolveE3 s) := by
  unfold evolveE3
  simp only [withC_p, lutFetch_withC]
  cases lutFetch s s.p.row ((idxOf s.p.outer).toNat + 1) <;> rfl

theorem evolveWith_withC (b : Byte) (s : State) : evolveWith b (withC c s) = mapNext (withC c) (evolveWith b s) := by
  unfold evolveWith
  simp only [mapNext_ite, withC_p, evolveE3_withC]
  rfl

theorem execSchedule_withC (source destination : Level) (mode : Byte) (s : State) :
    execSchedule source destination mode (withC c s) = mapNext (withC c) (execSchedule source destination mode s) := by
  unfold execSchedule
  simp only [mapNext_ite, withC_p, withC_cfg, withC_mem, lutFetch_withC]
  cases Memory.read s.mem.moff mode.toNat with
  | none => rfl
  | some o => cases hslot : lutFetch s (rowOf source destination) o.toNat <;> simp only [hslot] <;> rfl

theorem execFrame_withC (s : State) : execFrame (withC c s) = mapNext (withC c) (execFrame s) := by
  unfold execFrame
  simp only [mapNext_ite]
  rfl

/-- R1, R11: an instruction of unit P does the same whatever unit C holds. -/
theorem exec_player_withC (hunit : unitOf i = some .player) (s : State) :
    exec i (withC c s) = mapNext (withC c) (exec i s) := by
  cases i with
  | nil | pair | pairLast | reservedEntry | evolve => exact evolveWith_withC c _ s
  | schedule => exact execSchedule_withC c _ _ _ s
  | frame => exact execFrame_withC c s
  | endTok | tog | rep | lit | dec | enc | reservedOp => cases hunit

/-! ## Unit C's instructions -/

theorem checkInput_withP (s : State) (a n : Nat) : checkInput (withP p s) a n = checkInput s a n := by
  induction n generalizing a with
  | zero => rfl
  | succ n ih => simp only [checkInput, fetch_withP, ih]

theorem execDec_withP (off : Addr) (bound : Extent) (s : State) :
    execDec off bound (withP p s) = mapNext (withP p) (execDec off bound s) := by
  unfold execDec
  rw [mapNext_ite]
  rfl

theorem execEnc_withP (src : Addr) (length : Extent) (s : State) :
    execEnc src length (withP p s) = mapNext (withP p) (execEnc src length s) := by
  unfold execEnc
  simp only [mapNext_ite, withP_c, openRun_withP, checkInput_withP]
  cases checkInput (openRun src.toNat (src.toNat + length.toNat) (some src.toNat) s) src.toNat length.toNat <;> rfl

theorem provided_withP (addresses : List Nat) (t s : State) :
    provided addresses (withP p t) (withP p s) = mapNext (withP p) (provided addresses t s) := by
  have hfind : addresses.find? (fun a => limit (withP p s) ≤ a) = addresses.find? (fun a => limit s ≤ a) := rfl
  unfold provided
  rw [hfind]
  cases addresses.find? (fun a => limit s ≤ a) <;> rfl

/-- R1, R11: an instruction of unit C does the same whatever unit P holds. -/
theorem exec_codec_withP (hunit : unitOf i = some .codec) (s : State) :
    exec i (withP p s) = mapNext (withP p) (exec i s) := by
  cases i with
  | endTok | lit => rfl
  | rep v n => exact provided_withP p _ (repToken s.c.cur v n s) s
  | tog v count =>
    cases count with
    | none => exact provided_withP p _ (litToken (s.c.cur + 1) v (setMode .literalMode s)) s
    | some n => exact provided_withP p _ (repToken (s.c.cur + 1) v n (setMode .repeatMode s)) s
  | dec => exact execDec_withP p _ _ s
  | enc => exact execEnc_withP p _ _ s
  | nil | pair | pairLast | reservedEntry | schedule | evolve | frame | reservedOp => cases hunit

end Sys2Proof.Machine
end

section
/-! The units' independence (R48). -/

namespace Sys2Proof.Machine

/-- Settles O55: each instruction writes its unit alone and does not read the other, so the two orders make the same
two writes. -/
theorem unitsCommute : Obligations.UnitsCommute := by
  intro i j s a b hcodec hplayer hi hj
  have ha : a = withC a.c s := (exec_codec_next hcodec hi).eq_with_c
  rw [ha, exec_player_withC a.c hplayer] at hj
  obtain ⟨c, hc, rfl⟩ := mapNext_next hj
  have hwrite : c = withP c.p s := (exec_player_next hplayer hc).eq_with_p
  refine ⟨c, hc, ?_⟩
  rw [hwrite, exec_codec_withP c.p hcodec, hi, ha]
  rfl

end Sys2Proof.Machine
end

section
/-! SUPPORT. The invariant of the machine, part by part (R15 to R18, R22, R35, R108 to R110): what keeps unit C's part,
unit P's part and the memories' part. -/

namespace Sys2Proof.Machine

variable {s t : State} {src : Nat}

/-- A state that differs in unit C alone has the invariant when that unit's part holds. -/
theorem State.inv.with_codec (h : s.inv) {c : UnitC} (hfit : c.addressesFit) (hrecord : c.recordAgrees) :
    State.inv { s with c := c } := by
  obtain ⟨hcfg, himem, hlut, hmoff, hidx, -, -, hplayer⟩ := h
  exact ⟨hcfg, himem, hlut, hmoff, hidx, hfit, hrecord, hplayer⟩

/-- A state that differs in unit P alone has the invariant when that unit's part holds. -/
theorem State.inv.with_player (h : s.inv) {p : UnitP} (hidx : (idxOf p.outer).toNat < 64) (hrecord : p.recordAgrees) :
    State.inv { s with p := p } := by
  obtain ⟨hcfg, himem, hlut, hmoff, -, hfit, hcodec, -⟩ := h
  exact ⟨hcfg, himem, hlut, hmoff, hidx, hfit, hcodec, hrecord⟩

theorem State.inv.addressesFit (h : s.inv) : s.c.addressesFit := by
  obtain ⟨-, -, -, -, -, hfit, -, -⟩ := h
  exact hfit

theorem State.inv.codecRecord (h : s.inv) : s.c.recordAgrees := by
  obtain ⟨-, -, -, -, -, -, hrecord, -⟩ := h
  exact hrecord

theorem State.inv.playerRecord (h : s.inv) : s.p.recordAgrees := by
  obtain ⟨-, -, -, -, -, -, -, hrecord⟩ := h
  exact hrecord

theorem State.inv.idx (h : s.inv) : (idxOf s.p.outer).toNat < 64 := by
  obtain ⟨-, -, -, -, hidx, -⟩ := h
  exact hidx

/-- R16, R35: no limit lies above the address space. -/
theorem State.inv.imemSize_le (h : s.inv) : s.cfg.imemSize ≤ Config.addrSpace := by
  obtain ⟨⟨-, -, hsize⟩, -⟩ := h
  exact hsize

theorem State.inv.limit_le (h : s.inv) : limit s ≤ Config.addrSpace :=
  (Nat.min_le_right _ _).trans h.imemSize_le

/-! ## Unit C's part -/

/-- R14, R15: outside C_FAULT a clear fault record agrees. -/
theorem UnitC.recordAgrees_of_clear {c : UnitC} (hstate : c.cstate ≠ .fault)
    (hclear : c.ccause = 0 ∧ c.ckind = 0 ∧ c.cinfo = 0) : c.recordAgrees :=
  ⟨fun _ => hclear, fun hfault => absurd hfault hstate⟩

/-- R15, R17: while no ENC runs, CUR and CINFO alone have a range. -/
theorem UnitC.addressesFit_of_no_enc {c : UnitC} (hcur : c.cur ≤ Config.addrSpace) (hinfo : c.cinfo ≤ Config.addrSpace)
    (hnone : c.cstate ≠ .busy ∨ c.encSrc = none) : c.addressesFit := by
  refine ⟨hcur, hinfo, fun src hbusy henc => ?_⟩
  rcases hnone with hidle | hdec
  · exact absurd hbusy hidle
  · rw [hdec] at henc
    cases henc

/-- R108 to R110: unit C's two exceptions, at an address of the space, whatever else a run's opening has written. -/
theorem State.inv.codec_exception (h : s.inv) {c : UnitC} {e : Exc} {a : Nat}
    (he : e = .truncated a ∨ e = .reservedValue a) (ha : a ≤ Config.addrSpace) (hcur : c.cur ≤ Config.addrSpace) :
    (takeException .codec e { s with c := c }).inv := by
  rcases he with rfl | rfl
  · exact h.with_codec (UnitC.addressesFit_of_no_enc hcur ha (.inl CState.noConfusion))
      ⟨fun hstate => absurd rfl hstate, fun _ => .inl ⟨rfl, rfl⟩⟩
  · exact h.with_codec (UnitC.addressesFit_of_no_enc hcur ha (.inl CState.noConfusion))
      ⟨fun hstate => absurd rfl hstate, fun _ => .inr ⟨rfl, rfl⟩⟩

theorem State.inv.clear_record (h : s.inv) (hstate : s.c.cstate ≠ .fault) :
    s.c.ccause = 0 ∧ s.c.ckind = 0 ∧ s.c.cinfo = 0 :=
  h.codecRecord.1 hstate

theorem ne_fault_of_busy (hbusy : s.c.cstate = .busy) : s.c.cstate ≠ .fault := by
  rw [hbusy]
  exact CState.noConfusion

/-- R67: the end of a run. -/
theorem State.inv.ended (h : s.inv) (hbusy : s.c.cstate = .busy) (out : List Byte) :
    State.inv { s with c := { s.c with cstate := .done, out := out } } := by
  obtain ⟨hcur, hinfo, -⟩ := h.addressesFit
  exact h.with_codec (UnitC.addressesFit_of_no_enc hcur hinfo (.inl CState.noConfusion))
    (UnitC.recordAgrees_of_clear CState.noConfusion (h.clear_record (ne_fault_of_busy hbusy)))

/-- R66 to R70, R109: a decoder step. The bytes a token passes, and those before a missing one, are readable. -/
theorem State.inv.decoder_step (h : s.inv) (hbusy : s.c.cstate = .busy) (hdec : s.c.encSrc = none)
    (hstep : step s = .next t) : t.inv := by
  obtain ⟨hcur, hinfo, -⟩ := h.addressesFit
  have hlimit := h.limit_le
  rcases step_decoding_next hbusy hdec hstep with ⟨i, _, _, htoken, hread, hexec⟩ | ⟨bytes, k, hread, herror, _, rfl⟩
  · rw [exec_readable_token htoken hread] at hexec
    cases hexec
    split
    · exact h.ended hbusy s.c.out
    · exact h.with_codec
        (UnitC.addressesFit_of_no_enc ((hread.le_limit htoken).trans hlimit) hinfo (.inr hdec))
        (UnitC.recordAgrees_of_clear (ne_fault_of_busy hbusy) (h.clear_record (ne_fault_of_busy hbusy)))
  · obtain ⟨rfl, -⟩ := decodeToken_error herror
    refine h.codec_exception (.inl rfl) ?_ hcur
    by_cases hnil : bytes = []
    · rw [hnil]
      exact hcur
    · exact (hread.le_limit hnil).trans hlimit

/-- An encoder step moves CUR forward inside the input (R82 to R84). -/
theorem State.inv.encoder_moves (h : s.inv) (hbusy : s.c.cstate = .busy) (henc : s.c.encSrc = some src)
    (mode : Mode) (out : List Byte) {n : Nat} (hn : s.c.cur + n ≤ s.c.bound) :
    State.inv { s with c := { s.c with mode := mode, cur := s.c.cur + n, out := out } } := by
  obtain ⟨-, hinfo, hrange⟩ := h.addressesFit
  obtain ⟨hsrc, -, hbound⟩ := hrange src hbusy henc
  refine h.with_codec ⟨hn.trans hbound, hinfo, fun src' _ henc' => ?_⟩
    (UnitC.recordAgrees_of_clear (ne_fault_of_busy hbusy) (h.clear_record (ne_fault_of_busy hbusy)))
  obtain rfl : src = src' := Option.some.inj (henc.symm.trans henc')
  exact ⟨hsrc.trans (Nat.le_add_right _ _), hn, hbound⟩

theorem runLength_le (m : Memory) (a bound : Nat) : runLength m a bound ≤ bound - a :=
  countEqual_le _ _ _ _

theorem stretchLength_le (m : Memory) (src : Nat) {a bound : Nat} (h : a < bound) :
    stretchLength m src bound a ≤ bound - a :=
  Nat.max_le.2 ⟨Nat.le_sub_of_add_le' h, countSingles_le _ _ _ _ _⟩

/-- R82 to R85: an encoder step. -/
theorem State.inv.encoder_step (h : s.inv) (hbusy : s.c.cstate = .busy) (henc : s.c.encSrc = some src)
    (hstep : encStep src s = .next t) : t.inv := by
  rcases encStep_next hstep with ⟨_, rfl⟩ | ⟨hcur, _, v, _, rfl⟩ | ⟨hcur, _, ws, hlength, _, rfl⟩
  · exact h.ended hbusy _
  · have hrun := runLength_le s.mem.imem s.c.cur s.c.bound
    exact h.encoder_moves hbusy henc _ _ (by omega)
  · have hstretch := stretchLength_le s.mem.imem src hcur
    exact h.encoder_moves hbusy henc _ _ (by omega)

/-! ## The opening of a run -/

theorem addr_le_addrSpace (a : Addr) : a.toNat ≤ Config.addrSpace :=
  Nat.le_of_lt a.isLt

theorem accepts_ne_fault (h : accepts s.c.cstate = true) : s.c.cstate ≠ .fault := by
  intro hfault
  rw [hfault] at h
  cases h

/-- Where the input check raises, the addresses before were readable (R81, R116). -/
theorem checkInput_raises {a n : Nat} {e : Exc} (h : checkInput s a n = .raises e) :
    ∃ j, (e = .truncated j ∨ e = .reservedValue j) ∧ (j = a ∨ j ≤ limit s) := by
  induction n generalizing a with
  | zero => cases h
  | succ n ih =>
    rw [checkInput] at h
    rcases fetch_cases s a with ⟨_, hf⟩ | ⟨hlt, v, _, hf⟩ | ⟨_, _, hf⟩
    · rw [hf] at h
      cases h
      exact ⟨a, .inl rfl, .inl rfl⟩
    · rw [hf] at h
      dsimp only at h
      split at h
      · cases h
        exact ⟨a, .inr rfl, .inl rfl⟩
      · obtain ⟨j, he, hj⟩ := ih h
        exact ⟨j, he, .inr (hj.elim (fun hj => hj ▸ hlt) id)⟩
    · rw [hf] at h
      cases h

/-- A clean input of an ENC ends inside the address space (R81). -/
theorem State.inv.input_end_le (h : s.inv) (src : Addr) (length : Extent) {encSrc : Option Nat}
    (hclean : checkInput (openRun src.toNat (src.toNat + length.toNat) encSrc s) src.toNat length.toNat = .clean) :
    src.toNat + length.toNat ≤ Config.addrSpace := by
  have hsrc := addr_le_addrSpace src
  have hsize := h.imemSize_le
  by_cases hlength : length.toNat = 0
  · omega
  · obtain ⟨hlast, -⟩ := checkInput_clean.1 hclean (src.toNat + length.toNat - 1) (by omega) (by omega)
    have := Nat.lt_of_lt_of_le hlast (Nat.min_le_right _ _)
    rw [openRun_cfg] at this
    omega

/-- R65: an accepted DEC. -/
theorem State.inv.after_dec (h : s.inv) {off : Addr} {bound : Extent} (hexec : execDec off bound s = .next t) :
    t.inv := by
  rcases execDec_next hexec with rfl | ⟨haccepts, rfl⟩
  · exact h
  · have hclear := h.clear_record (accepts_ne_fault haccepts)
    obtain ⟨-, hinfo, -⟩ := h.addressesFit
    exact h.with_codec (UnitC.addressesFit_of_no_enc (addr_le_addrSpace off) hinfo (.inr rfl))
      (UnitC.recordAgrees_of_clear CState.noConfusion hclear)

/-- R81: an accepted ENC, clean or rejected. -/
theorem State.inv.after_enc (h : s.inv) {src : Addr} {length : Extent} (hexec : execEnc src length s = .next t) :
    t.inv := by
  rcases execEnc_next hexec with rfl | ⟨haccepts, _, rfl, ⟨hclean, rfl⟩ | ⟨e, hraises, rfl⟩⟩
  · exact h
  · have hclear := h.clear_record (accepts_ne_fault haccepts)
    obtain ⟨-, hinfo, -⟩ := h.addressesFit
    refine h.with_codec ⟨addr_le_addrSpace src, hinfo, fun src' _ henc => ?_⟩
      (UnitC.recordAgrees_of_clear CState.noConfusion hclear)
    obtain rfl : src.toNat = src' := Option.some.inj henc
    exact ⟨Nat.le_refl _, Nat.le_add_right _ _, h.input_end_le src length hclean⟩
  · obtain ⟨a, he, ha⟩ := checkInput_raises hraises
    refine h.codec_exception he ?_ (addr_le_addrSpace src)
    rcases ha with rfl | ha
    · exact addr_le_addrSpace src
    · exact ha.trans ((Nat.min_le_right _ _).trans h.imemSize_le)

/-! ## Unit P's part -/

/-- R18, R22, R92 to R99, R110: what unit P's instructions can do. -/
theorem State.inv.player_next {i : Instr} (h : s.inv) (hnext : PlayerNext i s t) : t.inv := by
  have hrecord := h.playerRecord
  cases hnext with
  | same => exact h
  | raises e he =>
    rcases he with ⟨_, rfl⟩ | ⟨_, rfl⟩
    · exact h.with_player h.idx ⟨fun hstate => absurd hstate PState.noConfusion, fun _ => ⟨rfl, .inl rfl⟩⟩
    · exact h.with_player h.idx ⟨fun hstate => absurd hstate PState.noConfusion, fun _ => ⟨rfl, .inr rfl⟩⟩
  | plays outer b hidx =>
    refine h.with_player ?_ ?_
    · rw [setActivePhase_outer]
      exact hidx h.idx
    · simpa [UnitP.recordAgrees] using hrecord
  | schedules row outer b hidx =>
    refine h.with_player ?_ ?_
    · rw [setActivePhase_outer]
      exact hidx
    · simpa [UnitP.recordAgrees] using hrecord
  | frames => exact h.with_player h.idx hrecord

/-! ## The memories' part, and the step -/

/-- R35: a store inside a memory. -/
theorem Memory.good_store {m : Memory} {size a : Nat} (h : Memory.good size m) (ha : a < size) (b : Byte) :
    Memory.good size (Memory.store m a b) :=
  ⟨Memory.store_wf h.1 a b, Memory.store_within h.2 ha b⟩

theorem State.inv.after_store (h : s.inv) {space : Space} {a : Nat} (ha : a < spaceSize s.cfg space) (b : Byte) :
    State.inv { s with mem := s.mem.set space (Memory.store (s.mem.get space) a b) } := by
  obtain ⟨hcfg, himem, hlut, hmoff, hrest⟩ := h
  cases space with
  | imem => exact ⟨hcfg, Memory.good_store himem ha b, hlut, hmoff, hrest⟩
  | lut => exact ⟨hcfg, himem, Memory.good_store hlut ha b, hmoff, hrest⟩
  | moff => exact ⟨hcfg, himem, hlut, Memory.good_store hmoff ha b, hrest⟩

/-- R27: the reset values of unit C. -/
theorem UnitC.atReset_fits : UnitC.atReset.addressesFit ∧ UnitC.atReset.recordAgrees :=
  ⟨UnitC.addressesFit_of_no_enc (by decide) (by decide) (.inr rfl),
    UnitC.recordAgrees_of_clear CState.noConfusion ⟨rfl, rfl, rfl⟩⟩

/-- R27: the reset values of unit P. -/
theorem UnitP.atReset_fits : (idxOf UnitP.atReset.outer).toNat < Config.slots ∧ UnitP.atReset.recordAgrees :=
  ⟨by decide, fun _ => ⟨rfl, rfl, rfl⟩, fun hfault => absurd hfault PState.noConfusion⟩

/-- A machine with its units reset has the invariant when its parameters and memories do (R123). -/
theorem State.inv_of_units_reset (hc : s.c = UnitC.atReset) (hp : s.p = UnitP.atReset) (hcfg : s.cfg.wf)
    (himem : Memory.good s.cfg.imemSize s.mem.imem) (hlut : Memory.good Config.lutBytes s.mem.lut)
    (hmoff : Memory.good s.cfg.numModes s.mem.moff) : s.inv := by
  obtain ⟨hfit, hcodec⟩ := UnitC.atReset_fits
  obtain ⟨hidx, hplayer⟩ := UnitP.atReset_fits
  rw [State.inv, hc, hp]
  exact ⟨hcfg, himem, hlut, hmoff, hidx, hfit, hcodec, hplayer⟩

theorem State.inv.after_reset (h : s.inv) : (applyReset s).inv := by
  obtain ⟨hcfg, himem, hlut, hmoff, -⟩ := h
  exact State.inv_of_units_reset (applyReset_c s) (applyReset_p s) hcfg himem hlut hmoff

/-- R62: an operation the host presents. -/
theorem State.inv.after_operation (h : s.inv) {p : OpPort} (hexec : exec (decodeOp p) s = .next t) : t.inv := by
  rcases opCode_cases p.op with hop | hop | hop | hop | hop | hop
  · rw [decodeOp_dec hop, exec_dec] at hexec
    exact h.after_dec hexec
  · rw [decodeOp_enc hop, exec_enc] at hexec
    exact h.after_enc hexec
  · rw [decodeOp_schedule hop] at hexec
    exact h.player_next (exec_player_next rfl hexec)
  · rw [decodeOp_evolve hop] at hexec
    exact h.player_next (exec_player_next rfl hexec)
  · rw [decodeOp_frame hop] at hexec
    exact h.player_next (exec_player_next rfl hexec)
  · rw [decodeOp_reservedOp hop, exec_reservedOp] at hexec
    cases hexec
    exact h

/-- The host's list is no part of the invariant. -/
theorem State.inv.with_host (h : s.inv) (later : List HostMove) : State.inv { s with host := later } := h

end Sys2Proof.Machine
end

section
/-! The invariant of every reachable state. -/

namespace Sys2Proof.Machine

/-- Settles O59: everything a step can do keeps the invariant. -/
theorem stepKeepsTheInvariant : Obligations.StepKeepsTheInvariant := by
  intro s t h hstep
  rcases step_next hstep with ⟨hbusy, src, henc, hexec⟩ | ⟨hbusy, hdec, _⟩ | ⟨hbusy, hdec, _⟩ | ⟨_, _, rfl⟩ |
    ⟨_, later, _, rfl⟩ | ⟨_, p, later, _, hexec⟩ | ⟨_, space, a, b, later, _, ha, rfl⟩ | ⟨_, _, later, _, rfl⟩
  · exact h.encoder_step hbusy henc hexec
  · exact h.decoder_step hbusy hdec hstep
  · exact h.decoder_step hbusy hdec hstep
  · exact h
  · exact (h.with_host later).after_reset
  · exact (h.with_host later).after_operation hexec
  · exact (h.with_host later).after_store ha b
  · exact h.with_host later

/-- Settles O60: no byte is loaded, and both units have their reset values. -/
theorem resetMeetsTheInvariant : Obligations.ResetMeetsTheInvariant :=
  State.inv_of_units_reset State.reset_c State.reset_p (by decide) (by decide) (by decide) (by decide)

end Sys2Proof.Machine
end
